-- ==== Sys2Proof/Word.lean ====
section
/-! DEFINITION. The word types of the SPN16 round engine (00_scope.md R5, R7, R9, R72). -/

namespace Sys2Proof

/-- A Nibble: four unsigned bits, 0..15 (00_scope.md R7). -/
abbrev Nibble := BitVec 4

/-- A block register's contents: a State or RoundKey packed into 16 bits (00_scope.md R9). -/
abbrev Block := BitVec 16

/-- A command word (30_encoding.md R72). -/
abbrev Word := BitVec 32

end Sys2Proof
end

