-- ==== Sys2Proof/Syntax.lean ====
section
/-! DEFINITION. The commands of the opcode map (30_encoding.md R76), one constructor a row, with the
operands their formats give them (R72). -/

namespace Sys2Proof

/-- A block register's name (10_state.md R20). -/
inductive Reg where
  | b0 | b1 | b2 | b3
deriving DecidableEq, Repr

/-- The 22 commands of 30_encoding.md R76. Every value is well formed: a register field names one
of four registers (R73), and an immediate is as wide as its field (R74, R75). -/
inductive Instr where
  /-- `LDI rd, imm16`, 45_move_status.md R260. -/
  | ldi (rd : Reg) (imm16 : BitVec 16)
  /-- `MOV rd, rs`, R261. -/
  | mov (rd rs : Reg)
  /-- `RD rs`, R262. -/
  | rd (rs : Reg)
  /-- `SUB rd, rs`, 40_substitution.md R104. -/
  | sub (rd rs : Reg)
  /-- `ISUB rd, rs`, R105. -/
  | isub (rd rs : Reg)
  /-- `SBX rd, imm8`, R106. -/
  | sbx (rd : Reg) (imm8 : BitVec 8)
  /-- `ISBX rd, imm8`, R107. -/
  | isbx (rd : Reg) (imm8 : BitVec 8)
  /-- `PERM rd, rs`, 41_permutation.md R134. -/
  | perm (rd rs : Reg)
  /-- `IPERM rd, rs`, R135. -/
  | iperm (rd rs : Reg)
  /-- `XOR rd, rs, rt`, 42_keymix_round.md R161. -/
  | xor (rd rs rt : Reg)
  /-- `ROUND rd, rs, rt`, R163. -/
  | round (rd rs rt : Reg)
  /-- `IROUND rd, rs, rt`, R165. -/
  | iround (rd rs rt : Reg)
  /-- `KMCLR`, 43_key_schedule.md R192. -/
  | kmclr
  /-- `KMPUSH imm8`, R193. -/
  | kmpush (imm8 : BitVec 8)
  /-- `KSCHED imm8`, R194. -/
  | ksched (imm8 : BitVec 8)
  /-- `KWIN rd, imm8`, R195. -/
  | kwin (rd : Reg) (imm8 : BitVec 8)
  /-- `ENC rd, rs`, 44_cipher_driver.md R229. -/
  | enc (rd rs : Reg)
  /-- `DEC rd, rs`, R230. -/
  | dec (rd rs : Reg)
  /-- `DECS rd, rs`, R231. -/
  | decs (rd rs : Reg)
  /-- `STAT`, 45_move_status.md R265. -/
  | stat
  /-- `CLRST`, R266. -/
  | clrst
  /-- `RDKS`, R267. -/
  | rdks
deriving DecidableEq, Repr

end Sys2Proof
end

