-- ==== Sys2Proof/Decode.lean ====
section
/-! DEFINITION. The command decoder, total on all 2^32 words (30_encoding.md R79), then the encoder.
Fields and reserved bits are those of the patterns of R72, opcodes those of R76. -/

namespace Sys2Proof

/-- Why a word is no command; either way it raises IllegalCommand (R77, R78). -/
inductive DecodeError where
  /-- The opcode is not in the map of R76 (R78). -/
  | unassignedOpcode
  /-- A bit that the opcode's format marks reserved is 1 (R77). -/
  | reservedBits
deriving DecidableEq, Repr

/-- Field value k selects block register Bk (R73). -/
def Reg.ofBits (k : BitVec 2) : Reg :=
  match k.toNat with
  | 0 => .b0
  | 1 => .b1
  | 2 => .b2
  | _ => .b3

/-- The field value that selects a register (R73). -/
def Reg.bits : Reg → BitVec 2
  | .b0 => 0
  | .b1 => 1
  | .b2 => 2
  | .b3 => 3

/-- `op`, bits 31:24. -/
def opField (w : Word) : BitVec 8 := w.extractLsb' 24 8

/-- `rd`, bits 23:22. -/
def rdField (w : Word) : Reg := Reg.ofBits (w.extractLsb' 22 2)

/-- `rs`, bits 21:20. -/
def rsField (w : Word) : Reg := Reg.ofBits (w.extractLsb' 20 2)

/-- `rt`, bits 19:18. -/
def rtField (w : Word) : Reg := Reg.ofBits (w.extractLsb' 18 2)

/-- `imm16`, bits 15:0, used as it stands (R74). -/
def imm16Field (w : Word) : BitVec 16 := w.extractLsb' 0 16

/-- `imm8`, bits 7:0 (R75). -/
def imm8Field (w : Word) : BitVec 8 := w.extractLsb' 0 8

/-- Bits `lo + n - 1 : lo` of the word are all 0. -/
def clearBits (w : Word) (lo n : Nat) : Bool := w.extractLsb' lo n == 0

/-- The command, where the reserved bits are clear (R77). -/
def orReserved (clear : Bool) (i : Instr) : Except DecodeError Instr :=
  if clear then .ok i else .error .reservedBits

/-- Format R3: bits 17:0 reserved. -/
def formatR3 (w : Word) (mk : Reg → Reg → Reg → Instr) : Except DecodeError Instr :=
  orReserved (clearBits w 0 18) (mk (rdField w) (rsField w) (rtField w))

/-- Format R2: bits 19:0 reserved. -/
def formatR2 (w : Word) (mk : Reg → Reg → Instr) : Except DecodeError Instr :=
  orReserved (clearBits w 0 20) (mk (rdField w) (rsField w))

/-- Format R1S: bits 23:22 and 19:0 reserved. -/
def formatR1S (w : Word) (mk : Reg → Instr) : Except DecodeError Instr :=
  orReserved (clearBits w 22 2 && clearBits w 0 20) (mk (rsField w))

/-- Format I16: bits 21:16 reserved. -/
def formatI16 (w : Word) (mk : Reg → BitVec 16 → Instr) : Except DecodeError Instr :=
  orReserved (clearBits w 16 6) (mk (rdField w) (imm16Field w))

/-- Format I8D: bits 21:8 reserved. -/
def formatI8D (w : Word) (mk : Reg → BitVec 8 → Instr) : Except DecodeError Instr :=
  orReserved (clearBits w 8 14) (mk (rdField w) (imm8Field w))

/-- Format I8: bits 23:8 reserved. -/
def formatI8 (w : Word) (mk : BitVec 8 → Instr) : Except DecodeError Instr :=
  orReserved (clearBits w 8 16) (mk (imm8Field w))

/-- Format N: bits 23:0 reserved. -/
def formatN (w : Word) (i : Instr) : Except DecodeError Instr :=
  orReserved (clearBits w 0 24) i

/-- The decoder: the opcode selects the command and its format (R76), and a reserved bit set makes
the word illegal (R77, R80). -/
def decode (w : Word) : Except DecodeError Instr :=
  match (opField w).toNat with
  | 0x01 => formatI16 w .ldi
  | 0x02 => formatR2 w .mov
  | 0x03 => formatR1S w .rd
  | 0x10 => formatR2 w .sub
  | 0x11 => formatR2 w .isub
  | 0x12 => formatI8D w .sbx
  | 0x13 => formatI8D w .isbx
  | 0x20 => formatR2 w .perm
  | 0x21 => formatR2 w .iperm
  | 0x30 => formatR3 w .xor
  | 0x31 => formatR3 w .round
  | 0x32 => formatR3 w .iround
  | 0x40 => formatN w .kmclr
  | 0x41 => formatI8 w .kmpush
  | 0x42 => formatI8 w .ksched
  | 0x43 => formatI8D w .kwin
  | 0x50 => formatR2 w .enc
  | 0x51 => formatR2 w .dec
  | 0x52 => formatR2 w .decs
  | 0x60 => formatN w .stat
  | 0x61 => formatN w .clrst
  | 0x62 => formatN w .rdks
  | _ => .error .unassignedOpcode

/-- The instruction the decoder reads from a word of `nbits` bits. A command is 32 bits (R72, R81):
bits above `nbits` are 0, and more than 32 bits are no command. -/
def decodeTableWord (nbits w : Nat) : Option Instr :=
  if nbits ≤ 32 then
    match decode (BitVec.ofNat 32 (w % 2 ^ nbits)) with
    | .ok i => some i
    | .error _ => none
  else none

/-- The pattern of format R3, bit 31 first (R72). -/
def packR3 (op : BitVec 8) (d s t : Reg) : Word := op ++ d.bits ++ s.bits ++ t.bits ++ 0#18

/-- The pattern of format R2. -/
def packR2 (op : BitVec 8) (d s : Reg) : Word := op ++ d.bits ++ s.bits ++ 0#20

/-- The pattern of format R1S. -/
def packR1S (op : BitVec 8) (s : Reg) : Word := op ++ 0#2 ++ s.bits ++ 0#20

/-- The pattern of format I16. -/
def packI16 (op : BitVec 8) (d : Reg) (imm : BitVec 16) : Word := op ++ d.bits ++ 0#6 ++ imm

/-- The pattern of format I8D. -/
def packI8D (op : BitVec 8) (d : Reg) (imm : BitVec 8) : Word := op ++ d.bits ++ 0#14 ++ imm

/-- The pattern of format I8. -/
def packI8 (op imm : BitVec 8) : Word := op ++ 0#16 ++ imm

/-- The pattern of format N. -/
def packN (op : BitVec 8) : Word := op ++ 0#24

/-- The word of a command, by the opcode map (R76) and the format's pattern (R72). -/
def encode : Instr → Word
  | .ldi rd imm16    => packI16 0x01 rd imm16
  | .mov rd rs       => packR2 0x02 rd rs
  | .rd rs           => packR1S 0x03 rs
  | .sub rd rs       => packR2 0x10 rd rs
  | .isub rd rs      => packR2 0x11 rd rs
  | .sbx rd imm8     => packI8D 0x12 rd imm8
  | .isbx rd imm8    => packI8D 0x13 rd imm8
  | .perm rd rs      => packR2 0x20 rd rs
  | .iperm rd rs     => packR2 0x21 rd rs
  | .xor rd rs rt    => packR3 0x30 rd rs rt
  | .round rd rs rt  => packR3 0x31 rd rs rt
  | .iround rd rs rt => packR3 0x32 rd rs rt
  | .kmclr           => packN 0x40
  | .kmpush imm8     => packI8 0x41 imm8
  | .ksched imm8     => packI8 0x42 imm8
  | .kwin rd imm8    => packI8D 0x43 rd imm8
  | .enc rd rs       => packR2 0x50 rd rs
  | .dec rd rs       => packR2 0x51 rd rs
  | .decs rd rs      => packR2 0x52 rd rs
  | .stat            => packN 0x60
  | .clrst           => packN 0x61
  | .rdks            => packN 0x62

end Sys2Proof
end

