-- ==== Sys2Proof/Config.lean ====
section
/-! DEFINITION. What an implementation of the block fixes, and the free values (00_scope.md R6,
93_implementation_defined.md). Every constant here that the spec leaves open has no body, so a claim
about the machine is true whatever its value is. -/

namespace Sys2Proof

/-- The S-box: a permutation of 0..15 and nothing else (40_substitution.md R100). As an `Equiv` it
carries its exact inverse, which the permutation determines (R101). -/
abbrev SBox := Equiv.Perm Nibble

/-- The parameters of 00_scope.md R6 that a rule reads. -/
structure Config where
  /-- `SBOX` (R100). -/
  sbox : SBox
  /-- `KM_DEPTH`, held as its excess over 5, so that every value is in the legal range 5..255. -/
  kmDepthAbove5 : Fin 251
  /-- `KS_STRICT`: `false` is 0, the silent empty schedule; `true` is 1 (43_key_schedule.md R194). -/
  ksStrict : Bool
deriving Inhabited

/-- `KM_DEPTH`, the number of cells of the key-material buffer, 5..255 (00_scope.md R6). -/
def Config.kmDepth (c : Config) : Nat := c.kmDepthAbove5.val + 5

/-- The chip's parameters. DESIGN CHOICE (logs 1, 2, 3; safe): no value is fixed, not even the
defaults of R6, since 93_implementation_defined.md I1 to I3 call all three parameters of a model. -/
opaque Config.chip : Config

/-- Cycles a command waits beyond the first, `CMD_LATENCY - 1` (70_reset_and_hazards.md R337), for
the draw number, the command word, B0..B3, the key material `KM[0..KM_LEN)` and NK; of the KM cells at
KM_LEN and above it is given nothing (43_key_schedule.md R196). DESIGN CHOICE (log 4; safe): "It may
differ between commands, and between runs of one command with different operands". -/
opaque Config.extraLatency :
  Nat → Word → List Block → List Nibble → BitVec 8 → Nat

/-- What a KM cell that nothing has written since reset holds, for the number of that reset and the
cell. DESIGN CHOICE (log 5; safe): 93_implementation_defined.md I5 says "any value". -/
opaque Config.unwrittenCell : Nat → Nat → Nibble

end Sys2Proof
end

