-- ==== Sys2Proof/Machine/State.lean ====
section
/-! DEFINITION. The state of the SPN16 round engine: everything 10_state.md and the ports of
30_encoding.md §1 give it, as plain data, and the state right after reset (R32). -/

namespace Sys2Proof.Machine

/-- The block registers B0..B3 (10_state.md R20). -/
structure BlockRegs where
  b0 : Block
  b1 : Block
  b2 : Block
  b3 : Block
deriving DecidableEq, Repr

/-- The KM cells that have been written since reset, as (index, nibble) pairs with strictly rising
indices (R26, 20_memory.md R50). An unlisted cell records no value (log 5). -/
abbrev Memory := List (Nat × Nibble)

/-- STATUS (10_state.md R28): its two fields. The reserved bits are hardwired 0, so they are not
stored; `Status.word` supplies them (log 10). -/
structure Status where
  /-- STICKY, bit 0. -/
  sticky : Bool
  /-- FIRSTERR, bits 7:4. -/
  firstErr : BitVec 4
deriving DecidableEq, Repr

/-- A command between acceptance and response (10_state.md R31). -/
structure InFlight where
  /-- The accepted command word. -/
  word : Word
  /-- The rising edges still to pass before the one at which it completes
  (70_reset_and_hazards.md R337). -/
  remaining : Nat
deriving DecidableEq, Repr

/-- What the host does next (60_exceptions.md R318). There is no move that breaks the handshake of
R319 (log 7). -/
inductive HostMove where
  /-- Offer the word with `cmd_valid` = 1, held until the edge that accepts it. -/
  | command (w : Word)
  /-- Offer nothing at one edge. -/
  | idle
  /-- Hold `rst` = 1 at one edge (70_reset_and_hazards.md R330). -/
  | reset
deriving DecidableEq, Repr

/-- The machine. -/
structure State where
  /-- B0..B3 (10_state.md R20). -/
  b : BlockRegs
  /-- The written KM cells (R26). -/
  km : Memory
  /-- KM_LEN (R26). -/
  kmLen : BitVec 8
  /-- NK (R27). -/
  nk : BitVec 8
  /-- STATUS (R28). -/
  status : Status
  /-- `rsp_err` (30_encoding.md R71). -/
  rspErr : BitVec 4
  /-- `rsp_data` (R71). -/
  rspData : BitVec 16
  /-- `rsp_valid` (R71). -/
  rspValid : Bool
  /-- `cmd_ready` (R70, 70_reset_and_hazards.md R331). -/
  cmdReady : Bool
  /-- The command in flight (10_state.md R31). -/
  inFlight : Option InFlight
  /-- What the host will do, next move first; past its end the host is idle (log 7). -/
  host : List HostMove
  /-- The model's own: which reset the unwritten cells' free values belong to (logs 5, 6). -/
  kmEpoch : Nat
  /-- The model's own: how many free values have been drawn (logs 4, 6). -/
  draws : Nat
deriving DecidableEq, Repr

/-- Why the machine stops. A command's error codes are no faults: a command that raises completes
(60_exceptions.md R300, 93_implementation_defined.md I14). -/
inductive Fault where
  /-- Raised by KMPUSH, KWIN, ENC, DEC and DECS on a KM cell number at or above KM_DEPTH, which does
  not exist (20_memory.md R50). Safe: no state that a run from reset reaches raises it (log 12). -/
  | noSuchKmCell
deriving DecidableEq, Repr

/-- Why the model gives an instruction no meaning. -/
inductive Refusal where
  /-- Raised by an arm of `exec` whose instruction has no meaning yet; at present by none. Safe. -/
  | notModelled (mnemonic : String)
deriving DecidableEq, Repr

/-- The state after reset, at its first edge with `rst` = 0 still to come (10_state.md R32,
70_reset_and_hazards.md R331). `kmEpoch` and `draws` are the model's own (log 6, DESIGN CHOICE). -/
def State.reset : State where
  b := ⟨0, 0, 0, 0⟩
  km := []
  kmLen := 0
  nk := 0
  status := ⟨false, 0⟩
  rspErr := 0
  rspData := 0
  rspValid := false
  cmdReady := false
  inFlight := none
  host := []
  kmEpoch := 0
  draws := 0

end Sys2Proof.Machine
end

