-- ==== Sys2Proof/Machine/Flags.lean ====
section
/-! DEFINITION. The block has no condition codes or flags (10_state.md R25). What a command leaves
behind about its outcome is an error code and the STATUS record (60_exceptions.md R301, R302). -/

namespace Sys2Proof.Machine

/-- The errors of 60_exceptions.md R301. -/
inductive ErrorCode where
  | outOfRange | invalidKeyCount | insufficientKeyMaterial
  /-- Reserved for the source's taxonomy; no command raises it (R309). -/
  | lengthMismatch
  | illegalCommand | keyIndex | keyMaterialFull
deriving DecidableEq, Repr

/-- The code numbers of R301; 0 is success and 8..15 are reserved. -/
def ErrorCode.code : ErrorCode → BitVec 4
  | .outOfRange              => 1
  | .invalidKeyCount         => 2
  | .insufficientKeyMaterial => 3
  | .lengthMismatch          => 4
  | .illegalCommand          => 5
  | .keyIndex                => 6
  | .keyMaterialFull         => 7

/-- STATUS with nothing recorded: what CLRST and reset leave (45_move_status.md R266). -/
def Status.clear : Status := ⟨false, 0⟩

/-- STATUS after a command that raised: the first error since the last clear is kept (R302). -/
def Status.record (st : Status) (e : ErrorCode) : Status :=
  if st.sticky then st else ⟨true, e.code⟩

/-- STATUS as software reads it: FIRSTERR in bits 7:4, STICKY in bit 0, the reserved bits 0
(10_state.md R28). -/
def Status.word (st : Status) : BitVec 16 := 0#8 ++ st.firstErr ++ 0#3 ++ BitVec.ofBool st.sticky

end Sys2Proof.Machine
end

