-- ==== Sys2Proof/Machine/Operands.lean ====
section
/-! DEFINITION. Operand forms: packed States and their nibbles (00_scope.md R8, R9), block registers
(30_encoding.md R73), and the candidate nibble of an `imm8` (R75). -/

namespace Sys2Proof.Machine

/-- `nib(v, j) = v[15-4j : 12-4j]` (00_scope.md R9). -/
def nib (v : Block) (j : Nat) : Nibble := v.extractLsb' (12 - 4 * j) 4

/-- `pack([n0,n1,n2,n3])`: nibble 0 is the most significant (R9). -/
def pack (n0 n1 n2 n3 : Nibble) : Block := n0 ++ n1 ++ n2 ++ n3

/-- State bit `sb`, which is word bit `15 - sb` (R8, R9). -/
def stateBit (v : Block) (sb : Nat) : Bool := v.getLsbD (15 - sb)

/-- Read a block register (10_state.md R20). -/
def BlockRegs.get (b : BlockRegs) : Reg → Block
  | .b0 => b.b0
  | .b1 => b.b1
  | .b2 => b.b2
  | .b3 => b.b3

/-- Write a block register (R20). -/
def BlockRegs.set (b : BlockRegs) (r : Reg) (v : Block) : BlockRegs :=
  match r with
  | .b0 => { b with b0 := v }
  | .b1 => { b with b1 := v }
  | .b2 => { b with b2 := v }
  | .b3 => { b with b3 := v }

/-- `imm8` as a Nibble: values 16..255 raise OutOfRange and are never wrapped (30_encoding.md R75,
60_exceptions.md R303). -/
def candidateNibble (imm8 : BitVec 8) : Except ErrorCode Nibble :=
  if imm8.toNat > 15 then .error .outOfRange else .ok (imm8.setWidth 4)

end Sys2Proof.Machine
end

