-- ==== Sys2Proof/Machine/Ops.lean ====
section
/-! DEFINITION. The shared operations over the KM cells, the block registers and the response: every
command is written over these. Raising an error is here; there is no return from it, for "There is no
return-from-trap command, no handler context and no nesting" (60_exceptions.md R314). -/

namespace Sys2Proof.Machine

/-! ## The key-material cells (20_memory.md R50) -/

/-- What a listed cell holds. -/
def Memory.read : Memory → Nat → Option Nibble
  | [], _ => none
  | (c, v) :: m, a => if a = c then some v else Memory.read m a

/-- Write one cell, keeping the indices strictly rising. -/
def Memory.write : Memory → Nat → Nibble → Memory
  | [], a, n => [(a, n)]
  | (c, v) :: m, a, n =>
    if a < c then (a, n) :: (c, v) :: m
    else if a = c then (a, n) :: m
    else (c, v) :: Memory.write m a n

/-- The canonical form: indices strictly rising. An unlisted cell records no value, so no entry can
equal what an unlisted cell reads as (log 5). -/
abbrev Memory.wf (m : Memory) : Prop := m.Pairwise fun x y => x.1 < y.1

/-- What cell `a` holds: the nibble last written, or a free value where nothing has written it since
reset (10_state.md R26, 93_implementation_defined.md I5; log 5). -/
def State.cell (s : State) (a : Nat) : Nibble :=
  (s.km.read a).getD (Config.unwrittenCell s.kmEpoch a)

/-- Cell `a` is one of the cells 0 .. KM_DEPTH - 1 (20_memory.md R50). -/
def cellExists (depth a : Nat) : Bool := a < depth

/-- Window `i`: cell `KM[i]` is nibble 0 (20_memory.md R51, 43_key_schedule.md R195). -/
def State.window (s : State) (i : Nat) : Block :=
  pack (s.cell i) (s.cell (i + 1)) (s.cell (i + 2)) (s.cell (i + 3))

/-- The current key schedule, `keys(state) = [W(0), ..., W(NK-1)]` (44_cipher_driver.md R228). -/
def State.keys (s : State) : List Block := (List.range s.nk.toNat).map s.window

/-- The key material `KM[0..KM_LEN)` (10_state.md R26). -/
def State.material (s : State) : List Nibble := (List.range s.kmLen.toNat).map s.cell

/-- The key-schedule status word `{NK[7:0], KM_LEN[7:0]}`, a view (10_state.md R29). -/
def State.scheduleWord (s : State) : BitVec 16 := s.nk ++ s.kmLen

/-! ## Block registers -/

/-- `B[r]`. -/
def State.readB (s : State) (r : Reg) : Block := s.b.get r

/-- `B[r] <- v`. -/
def State.writeB (s : State) (r : Reg) (v : Block) : State := { s with b := s.b.set r v }

/-! ## Completion (30_encoding.md R80) -/

/-- The outcome of a command's rule. -/
abbrev Result := Host.Outcome State Fault Refusal

/-- `respond(v)`: completion without error, on the state with the command's writes applied. -/
def State.respond (s : State) (v : BitVec 16) : Result :=
  .next { s with rspErr := 0, rspData := v }

/-- `raise E`: the command completes with E's code and data 0, records E in STATUS, and writes
nothing else (60_exceptions.md R300, R302). It saves no state and transfers control nowhere (R313). -/
def State.raise (s : State) (e : ErrorCode) : Result :=
  .next { s with status := s.status.record e, rspErr := e.code, rspData := 0 }

/-- A check of an operand: raise where it fails, go on where it holds. -/
def State.check {α : Type} (s : State) (r : Except ErrorCode α) (k : α → Result) : Result :=
  match r with
  | .ok a => k a
  | .error e => s.raise e

/-- `B[rd] <- v; respond(v)`: every command that writes a block register returns the value written
(45_move_status.md R263). -/
def State.writeBack (s : State) (rd : Reg) (v : Block) : Result := (s.writeB rd v).respond v

end Sys2Proof.Machine
end

