-- ==== Sys2Proof/Machine/KeySchedule.lean ====
section
/-! DEFINITION. The Key Schedule window extractor: `gen_keys`, KMCLR, KMPUSH, KSCHED, KWIN
(43_key_schedule.md). -/

namespace Sys2Proof.Machine

/-- `M[i..i+4)` as a packed key, for a window that fits in `M` (R190). -/
def materialWindow (M : List Nibble) (i : Nat) : Block :=
  pack (M.getD i 0) (M.getD (i + 1) 0) (M.getD (i + 2) 0) (M.getD (i + 3) 0)

/-- `gen_keys(M, rounds)`: `rounds` windows where `rounds < len(M) - 2`, an integer comparison whose
right side may be negative, and the empty list elsewhere (R190; 90_conflicts.md C2, C5). -/
def genKeys (M : List Nibble) (rounds : Int) : List Block :=
  if rounds < (M.length : Int) - 2 then (List.range rounds.toNat).map (materialWindow M) else []

/-- KMCLR, R192: the cells are not written. -/
def execKmclr (s : State) : Result := State.respond { s with kmLen := 0, nk := 0 } 0

/-- KMPUSH's rule on a buffer of `depth` cells, R193: OutOfRange is checked before the full buffer
(60_exceptions.md R310), and the response is the new KM_LEN. -/
def pushNibble (depth : Nat) (imm8 : BitVec 8) (s : State) : Result :=
  s.check (candidateNibble imm8) fun n =>
    if s.kmLen.toNat = depth then s.raise .keyMaterialFull
    else if cellExists depth s.kmLen.toNat then
      State.respond { s with km := s.km.write s.kmLen.toNat n, kmLen := s.kmLen + 1 }
        ((s.kmLen + 1).setWidth 16)
    else .fault .noSuchKmCell

/-- KMPUSH, R193. -/
def execKmpush (imm8 : BitVec 8) (s : State) : Result := pushNibble Config.chip.kmDepth imm8 s

/-- NK as KSCHED leaves it, or the error of the strict policy, from `rounds` and KM_LEN (R194). -/
def scheduleLength (strict : Bool) (r kmLen : BitVec 8) : Except ErrorCode (BitVec 8) :=
  if r = 0 then .ok 0
  else if r.toNat + 3 ≤ kmLen.toNat then .ok r
  else if strict then .error .insufficientKeyMaterial
  else .ok 0

/-- KSCHED's rule under a policy, R194: the response is the new NK. -/
def schedule (strict : Bool) (imm8 : BitVec 8) (s : State) : Result :=
  s.check (scheduleLength strict imm8 s.kmLen) fun nk =>
    State.respond { s with nk := nk } (nk.setWidth 16)

/-- KSCHED, R194. -/
def execKsched (imm8 : BitVec 8) (s : State) : Result := schedule Config.chip.ksStrict imm8 s

/-- KWIN, R195. The four cells of the window exist in every state a run reaches (10_state.md R27). -/
def execKwin (rd : Reg) (imm8 : BitVec 8) (s : State) : Result :=
  if s.nk.toNat ≤ imm8.toNat then s.raise .keyIndex
  else if cellExists Config.chip.kmDepth (imm8.toNat + 3) then
    s.writeBack rd (s.window imm8.toNat)
  else .fault .noSuchKmCell

end Sys2Proof.Machine
end

