-- ==== Sys2Proof/Machine/Permutation.lean ====
section
/-! DEFINITION. The Bit Permutation unit: PERM, IPERM (41_permutation.md). -/

namespace Sys2Proof.Machine

/-- `PERM_TABLE`: the source's 1-indexed positions less 1 (R130). -/
def permTable : List Nat := [1, 5, 9, 13, 2, 6, 10, 14, 3, 7, 11, 15, 4, 8, 12, 16].map (· - 1)

/-- `INV_PERM_TABLE` by the derivation of R131: for each output position i, the input position p
with `table[p] = i`. -/
def invPermTable : List Nat := (List.range 16).map fun i => permTable.idxOf i

/-- Set the bit of weight `8 >> s` in nibble `d` of the packed output, by OR (R132). -/
def orBit (out : Block) (d s : Nat) : Block :=
  out ||| ((8#16 >>> s) <<< (12 - 4 * d))

/-- The move of source bit `b = 4*j + i`: where it is set, destination bit `p = T[b]` is set, in
nibble `d = (p - s) div 4` at weight `8 >> s`, `s = p mod 4` (R132; 90_conflicts.md C1). -/
def moveBit (T : List Nat) (v out : Block) (b : Nat) : Block :=
  if nib v (b / 4) &&& (8#4 >>> (b % 4)) ≠ 0 then
    let p := T.getD b 0
    let s := p % 4
    let d := (p - s) / 4
    orBit out d s
  else out

/-- `perm_with(T, v)`: the 16 source bits in order, from an output of zeros (R132). -/
def permWith (T : List Nat) (v : Block) : Block := (List.range 16).foldl (moveBit T v) 0

/-- `permute(v)` (R132). -/
def permute (v : Block) : Block := permWith permTable v

/-- `inverse_permute(v)`: "the same algorithm using the inverse table" (R132). -/
def inversePermute (v : Block) : Block := permWith invPermTable v

/-- PERM, R134. -/
def execPerm (rd rs : Reg) (s : State) : Result := s.writeBack rd (permute (s.readB rs))

/-- IPERM, R135. -/
def execIperm (rd rs : Reg) (s : State) : Result := s.writeBack rd (inversePermute (s.readB rs))

end Sys2Proof.Machine
end

