-- ==== Sys2Proof/Machine/Substitution.lean ====
section
/-! DEFINITION. The Nibble S-box unit: SUB, ISUB, SBX, ISBX (40_substitution.md). -/

namespace Sys2Proof.Machine

/-- `substitute(n) = SBOX[n]` (R102). -/
def substitute (S : SBox) (n : Nibble) : Nibble := S n

/-- `inverse_substitute(n) = ISBOX[n]`: ISBOX is the exact inverse of SBOX (R101, R102). -/
def inverseSubstitute (S : SBox) (n : Nibble) : Nibble := S.symm n

/-- `substitutions(v)`, element-wise over the four nibbles (R103). -/
def substitutions (S : SBox) (v : Block) : Block :=
  pack (substitute S (nib v 0)) (substitute S (nib v 1)) (substitute S (nib v 2))
    (substitute S (nib v 3))

/-- `inverse_substitutions(v)` (R103). -/
def inverseSubstitutions (S : SBox) (v : Block) : Block :=
  pack (inverseSubstitute S (nib v 0)) (inverseSubstitute S (nib v 1))
    (inverseSubstitute S (nib v 2)) (inverseSubstitute S (nib v 3))

/-- SUB, R104. -/
def execSub (rd rs : Reg) (s : State) : Result :=
  s.writeBack rd (substitutions Config.chip.sbox (s.readB rs))

/-- ISUB, R105. -/
def execIsub (rd rs : Reg) (s : State) : Result :=
  s.writeBack rd (inverseSubstitutions Config.chip.sbox (s.readB rs))

/-- SBX, R106: the result nibble is zero-extended into bits 3:0. -/
def execSbx (rd : Reg) (imm8 : BitVec 8) (s : State) : Result :=
  s.check (candidateNibble imm8) fun n =>
    s.writeBack rd ((substitute Config.chip.sbox n).setWidth 16)

/-- ISBX, R107. -/
def execIsbx (rd : Reg) (imm8 : BitVec 8) (s : State) : Result :=
  s.check (candidateNibble imm8) fun n =>
    s.writeBack rd ((inverseSubstitute Config.chip.sbox n).setWidth 16)

end Sys2Proof.Machine
end

