-- ==== Sys2Proof/Machine/Rounds.lean ====
section
/-! DEFINITION. The Round unit: XOR, ROUND, IROUND (42_keymix_round.md). -/

namespace Sys2Proof.Machine

/-- `xor(state, key)`, lane-wise on packed values (R160). -/
def keyMix (a k : Block) : Block := a ^^^ k

/-- `round(s, k)`: mix, substitute, permute (R162). -/
def fullRound (S : SBox) (s k : Block) : Block := permute (substitutions S (keyMix s k))

/-- `iround(s, k)`: undo permute, undo substitute, undo mix (R162). -/
def inverseRound (S : SBox) (s k : Block) : Block :=
  keyMix (inverseSubstitutions S (inversePermute s)) k

/-- XOR, R161. -/
def execXor (rd rs rt : Reg) (s : State) : Result :=
  s.writeBack rd (keyMix (s.readB rs) (s.readB rt))

/-- ROUND, R163. -/
def execRound (rd rs rt : Reg) (s : State) : Result :=
  s.writeBack rd (fullRound Config.chip.sbox (s.readB rs) (s.readB rt))

/-- IROUND, R165. -/
def execIround (rd rs rt : Reg) (s : State) : Result :=
  s.writeBack rd (inverseRound Config.chip.sbox (s.readB rs) (s.readB rt))

end Sys2Proof.Machine
end

