-- ==== Sys2Proof/Machine/Cipher.lean ====
section
/-! DEFINITION. The Cipher Driver: `encrypt`, `decrypt`, `decrypt_simple` over a key list, and ENC,
DEC, DECS over the key schedule (44_cipher_driver.md). -/

namespace Sys2Proof.Machine

/-- The encryption structure of R220 over a substitution and a permutation: a full round for every
key but the last two, then a partial round, then whitening. Fewer than two keys raise
InvalidKeyCount (R221). -/
def cipherStructure (subst perm : Block → Block) (p : Block) (keys : List Block) :
    Except ErrorCode Block :=
  let n := keys.length
  if n < 2 then .error .invalidKeyCount
  else
    let s := (keys.take (n - 2)).foldl (fun s k => perm (subst (keyMix s k))) p
    let s := subst (keyMix s (keys.getD (n - 2) 0))
    .ok (keyMix s (keys.getD (n - 1) 0))

/-- `encrypt(p, keys)` (R220; 90_conflicts.md C4). -/
def encrypt (S : SBox) (p : Block) (keys : List Block) : Except ErrorCode Block :=
  cipherStructure (substitutions S) permute p keys

/-- `decrypt(c, keys)`, the key-reversal decryption (R222). -/
def decrypt (S : SBox) (c : Block) (keys : List Block) : Except ErrorCode Block :=
  match keys.reverse with
  | r0 :: r1 :: rest =>
    let s := inverseSubstitutions S (keyMix c r0)
    let s := keyMix s r1
    .ok (rest.foldl (inverseRound S) s)
  | _ => .error .invalidKeyCount

/-- `transform(keys)`: the interior keys through `inverse_permute`, then the list reversed (R223). -/
def transform (keys : List Block) : List Block :=
  (keys.mapIdx fun i k => if 0 < i ∧ i < keys.length - 1 then inversePermute k else k).reverse

/-- `encrypt_inv(c, u)`: the structure of R220 with the inverse tables (R225). -/
def encryptInv (S : SBox) (c : Block) (u : List Block) : Except ErrorCode Block :=
  cipherStructure (inverseSubstitutions S) inversePermute c u

/-- `decrypt_simple(c, keys) = encrypt_inv(c, transform(keys))` (R224; 90_conflicts.md C3). -/
def decryptSimple (S : SBox) (c : Block) (keys : List Block) : Except ErrorCode Block :=
  encryptInv S c (transform keys)

/-- A driver command: InvalidKeyCount where NK < 2, else `f` of `B[rs]` and the key schedule, written
to `B[rd]` (R228, R229). The cells of every window exist in every state a run reaches. -/
def runDriver (f : Block → List Block → Except ErrorCode Block) (rd rs : Reg) (s : State) :
    Result :=
  if s.nk.toNat < 2 then s.raise .invalidKeyCount
  else if cellExists Config.chip.kmDepth (s.nk.toNat + 2) then
    s.check (f (s.readB rs) s.keys) fun r => s.writeBack rd r
  else .fault .noSuchKmCell

/-- ENC, R229. -/
def execEnc (rd rs : Reg) (s : State) : Result := runDriver (encrypt Config.chip.sbox) rd rs s

/-- DEC, R230. -/
def execDec (rd rs : Reg) (s : State) : Result := runDriver (decrypt Config.chip.sbox) rd rs s

/-- DECS, R231. -/
def execDecs (rd rs : Reg) (s : State) : Result :=
  runDriver (decryptSimple Config.chip.sbox) rd rs s

end Sys2Proof.Machine
end

