-- ==== Sys2Proof/Machine/MoveStatus.lean ====
section
/-! DEFINITION. Data movement and status: LDI, MOV, RD, STAT, CLRST, RDKS (45_move_status.md). -/

namespace Sys2Proof.Machine

/-- LDI, R260. -/
def execLdi (rd : Reg) (imm16 : BitVec 16) (s : State) : Result := s.writeBack rd imm16

/-- MOV, R261. -/
def execMov (rd rs : Reg) (s : State) : Result := s.writeBack rd (s.readB rs)

/-- RD, R262. -/
def execRd (rs : Reg) (s : State) : Result := s.respond (s.readB rs)

/-- STAT, R265. -/
def execStat (s : State) : Result := s.respond s.status.word

/-- CLRST, R266. -/
def execClrst (s : State) : Result := State.respond { s with status := Status.clear } 0

/-- RDKS, R267. -/
def execRdks (s : State) : Result := s.respond s.scheduleWord

end Sys2Proof.Machine
end

