-- ==== Sys2Proof/Machine/Dispatch.lean ====
section
/-! DEFINITION. The meaning of every command (30_encoding.md R76, R80). -/

namespace Sys2Proof.Machine

def exec (i : Instr) (s : State) : Host.Outcome State Fault Refusal :=
  match i with
  | .ldi rd imm16 => Sys2Proof.Machine.execLdi rd imm16 s
  | .mov rd rs => Sys2Proof.Machine.execMov rd rs s
  | .rd rs => Sys2Proof.Machine.execRd rs s
  | .sub rd rs => Sys2Proof.Machine.execSub rd rs s
  | .isub rd rs => Sys2Proof.Machine.execIsub rd rs s
  | .sbx rd imm8 => Sys2Proof.Machine.execSbx rd imm8 s
  | .isbx rd imm8 => Sys2Proof.Machine.execIsbx rd imm8 s
  | .perm rd rs => Sys2Proof.Machine.execPerm rd rs s
  | .iperm rd rs => Sys2Proof.Machine.execIperm rd rs s
  | .xor rd rs rt => Sys2Proof.Machine.execXor rd rs rt s
  | .round rd rs rt => Sys2Proof.Machine.execRound rd rs rt s
  | .iround rd rs rt => Sys2Proof.Machine.execIround rd rs rt s
  | .kmclr => Sys2Proof.Machine.execKmclr s
  | .kmpush imm8 => Sys2Proof.Machine.execKmpush imm8 s
  | .ksched imm8 => Sys2Proof.Machine.execKsched imm8 s
  | .kwin rd imm8 => Sys2Proof.Machine.execKwin rd imm8 s
  | .enc rd rs => Sys2Proof.Machine.execEnc rd rs s
  | .dec rd rs => Sys2Proof.Machine.execDec rd rs s
  | .decs rd rs => Sys2Proof.Machine.execDecs rd rs s
  | .stat => Sys2Proof.Machine.execStat s
  | .clrst => Sys2Proof.Machine.execClrst s
  | .rdks => Sys2Proof.Machine.execRdks s

end Sys2Proof.Machine
end

