-- ==== Sys2Proof/Machine/Ports.lean ====
section
/-! DEFINITION. The ports at one rising edge of `clk`: reset, acceptance, the wait, completion
(30_encoding.md R70, R71, R80; 60_exceptions.md R318, R319; 70_reset_and_hazards.md). -/

namespace Sys2Proof.Machine

/-! ## The host's pins -/

/-- `rst` at this edge. -/
def State.rst (s : State) : Bool :=
  match s.host with
  | .reset :: _ => true
  | _ => false

/-- `cmd_word` where `cmd_valid` = 1, else nothing is offered (30_encoding.md R70). -/
def State.offered (s : State) : Option Word :=
  match s.host with
  | .command w :: _ => some w
  | _ => none

/-- The host's moves after an edge that accepted nothing: an offered word is held
(60_exceptions.md R319), an idle or reset edge has passed. -/
def State.hostHolds (s : State) : List HostMove :=
  match s.host with
  | .command w :: ms => .command w :: ms
  | .idle :: ms => ms
  | .reset :: ms => ms
  | [] => []

/-! ## A command word -/

/-- `Exec(w)` of 30_encoding.md R80: an illegal word raises IllegalCommand before any other check
(60_exceptions.md R304, R310). -/
def executeWord (w : Word) (s : State) : Result :=
  match decode w with
  | .ok i => exec i s
  | .error _ => s.raise .illegalCommand

/-! ## The edges -/

/-- An edge with `rst` = 1: the reset values of 10_state.md R32, whatever was in flight
(70_reset_and_hazards.md R330, R332). The unwritten cells get fresh free values (log 5). DESIGN CHOICE
(log 14; unsafe): `cmd_ready` and `rsp_valid` fall at this edge, the first that samples `rst` = 1, and
show their earlier values until it, where R331 says 0 "While `rst = 1`" and R330 "synchronous". -/
def State.resetEdge (s : State) : State :=
  { State.reset with host := s.hostHolds, kmEpoch := s.draws + 1, draws := s.draws + 1 }

/-- The wait of a command accepted at this state, beyond its first cycle
(70_reset_and_hazards.md R337; log 4). No cell at KM_LEN or above has a say (43_key_schedule.md R196). -/
def State.drawLatency (s : State) (w : Word) : Nat :=
  Config.extraLatency s.draws w [s.b.b0, s.b.b1, s.b.b2, s.b.b3] s.material s.nk

/-- An edge with no command in flight. Where `cmd_ready` and `cmd_valid` are both 1 the word is
accepted and `cmd_ready` falls (30_encoding.md R70); else the block is ready, also where it was not
because reset has just ended (70_reset_and_hazards.md R331). The response stays held (R71). -/
def State.portEdge (s : State) : State :=
  match s.cmdReady, s.offered with
  | true, some w =>
    { s with inFlight := some ⟨w, s.drawLatency w⟩, cmdReady := false, rspValid := false,
             host := s.host.tail, draws := s.draws + 1 }
  | _, _ => { s with cmdReady := true, rspValid := false, host := s.hostHolds }

/-- An edge at which the command in flight goes on; `k` edges are left before its last. -/
def State.waitEdge (s : State) (w : Word) (k : Nat) : State :=
  { s with inFlight := some ⟨w, k⟩, rspValid := false, host := s.hostHolds }

/-- The edge at which a command completes, from what its rule gave: `rsp_valid` is pulsed and
`cmd_ready` raised again (30_encoding.md R71, 60_exceptions.md R318). -/
def State.completeEdge (s : State) : Result → Result
  | .next t =>
    .next { t with inFlight := none, cmdReady := true, rspValid := true, host := s.hostHolds }
  | .fault f => .fault f
  | .refused r => .refused r

/-- One rising edge of `clk`. Reset takes priority over everything (60_exceptions.md R311). -/
def clockEdge (s : State) : Result :=
  if s.rst then .next s.resetEdge
  else match s.inFlight with
    | none => .next s.portEdge
    | some c =>
      match c.remaining with
      | 0 => s.completeEdge (executeWord c.word s)
      | k + 1 => .next (s.waitEdge c.word k)

/-- The state with the word accepted (30_encoding.md R70) and its wait over, and `rst` = 0 at the next
edge. -/
def State.withInFlight (s : State) (w : Word) : State :=
  { s with inFlight := some ⟨w, 0⟩, cmdReady := false, rspValid := false, host := .idle :: s.host }

end Sys2Proof.Machine
end

