-- ==== Sys2Proof/Machine/Step.lean ====
section
/-! DEFINITION. One step is one rising edge of `clk` (log 8). -/

namespace Sys2Proof.Machine

/-- One rising edge of `clk`. -/
def step (s : State) : Host.Outcome State Fault Refusal := clockEdge s

/-- `s` with the word accepted and its latency over, so that the next edge completes it and it alone
(log 8): the block has no program counter and fetches nothing (10_state.md R24). -/
def State.withFetchWord (s : State) (nbits w : Nat) : State :=
  s.withInFlight (BitVec.ofNat 32 (w % 2 ^ nbits))

end Sys2Proof.Machine
end

