-- ==== Sys2Proof/Machine/Assembler.lean ====
section
/-! DEFINITION. The assembly text of 30_encoding.md R82 and the pseudo-instructions of R83, and a
host that issues a list of commands in order. Nothing of the machine depends on this file
(92_eei_decisions.md D25). Where R82 leaves the text open, log 11 says what is accepted. -/

namespace Sys2Proof.Machine

/-! ## Pseudo-instructions (R83) -/

/-- `CLR rd` expands to `LDI rd, 0x0000`. -/
def pseudoClr (rd : Reg) : List Instr := [.ldi rd 0]

/-- `KMLOAD n0, ..., n(L-1)` expands to KMCLR and one KMPUSH a nibble, in that order. The operands
are those of KMPUSH, so a value of 16 or more is assembled and then refused by the block. -/
def pseudoKmload (ns : List (BitVec 8)) : List Instr := .kmclr :: ns.map .kmpush

/-! ## Lines (R82) -/

/-- An operand of a line. -/
inductive AsmOperand where
  /-- A register, `b0`..`b3`. -/
  | reg (r : Reg)
  /-- An immediate, decimal or hex. -/
  | num (n : Nat)
  /-- A State list, `[n0,n1,n2,n3]`. -/
  | state (ns : List Nat)
deriving DecidableEq, Repr

/-- An `imm8` operand: 0..255. -/
def AsmOperand.imm8 : AsmOperand → Option (BitVec 8)
  | .num n => if n < 256 then some (BitVec.ofNat 8 n) else none
  | _ => none

/-- An `imm16` operand: 0..65535, or a State list, which means its packing. -/
def AsmOperand.imm16 : AsmOperand → Option (BitVec 16)
  | .num n => if n < 65536 then some (BitVec.ofNat 16 n) else none
  | .state [n0, n1, n2, n3] =>
    if n0 < 16 ∧ n1 < 16 ∧ n2 < 16 ∧ n3 < 16 then
      some (pack (BitVec.ofNat 4 n0) (BitVec.ofNat 4 n1) (BitVec.ofNat 4 n2) (BitVec.ofNat 4 n3))
    else none
  | _ => none

/-- Operand order of format R3: `MNEMONIC rd, rs, rt`. -/
def asmR3 (mk : Reg → Reg → Reg → Instr) : List AsmOperand → Option (List Instr)
  | [.reg d, .reg s, .reg t] => some [mk d s t]
  | _ => none

/-- Operand order of format R2: `MNEMONIC rd, rs`. -/
def asmR2 (mk : Reg → Reg → Instr) : List AsmOperand → Option (List Instr)
  | [.reg d, .reg s] => some [mk d s]
  | _ => none

/-- Operand order of format R1S, and of `CLR`: one register. -/
def asmR1 (mk : Reg → List Instr) : List AsmOperand → Option (List Instr)
  | [.reg r] => some (mk r)
  | _ => none

/-- Operand order of format I16: `LDI rd, imm16`. -/
def asmI16 (mk : Reg → BitVec 16 → Instr) : List AsmOperand → Option (List Instr)
  | [.reg d, o] => o.imm16.map fun v => [mk d v]
  | _ => none

/-- Operand order of format I8D: `MNEMONIC rd, imm8`. -/
def asmI8D (mk : Reg → BitVec 8 → Instr) : List AsmOperand → Option (List Instr)
  | [.reg d, o] => o.imm8.map fun v => [mk d v]
  | _ => none

/-- Operand order of format I8: `MNEMONIC imm8`. -/
def asmI8 (mk : BitVec 8 → Instr) : List AsmOperand → Option (List Instr)
  | [o] => o.imm8.map fun v => [mk v]
  | _ => none

/-- Format N: no operand. -/
def asmN (i : Instr) : List AsmOperand → Option (List Instr)
  | [] => some [i]
  | _ => none

/-- The commands a line stands for: one command, or a pseudo-instruction's expansion. -/
def assemble (mnemonic : String) (ops : List AsmOperand) : Option (List Instr) :=
  match mnemonic with
  | "LDI" => asmI16 .ldi ops
  | "MOV" => asmR2 .mov ops
  | "RD" => asmR1 (fun r => [.rd r]) ops
  | "SUB" => asmR2 .sub ops
  | "ISUB" => asmR2 .isub ops
  | "SBX" => asmI8D .sbx ops
  | "ISBX" => asmI8D .isbx ops
  | "PERM" => asmR2 .perm ops
  | "IPERM" => asmR2 .iperm ops
  | "XOR" => asmR3 .xor ops
  | "ROUND" => asmR3 .round ops
  | "IROUND" => asmR3 .iround ops
  | "KMCLR" => asmN .kmclr ops
  | "KMPUSH" => asmI8 .kmpush ops
  | "KSCHED" => asmI8 .ksched ops
  | "KWIN" => asmI8D .kwin ops
  | "ENC" => asmR2 .enc ops
  | "DEC" => asmR2 .dec ops
  | "DECS" => asmR2 .decs ops
  | "STAT" => asmN .stat ops
  | "CLRST" => asmN .clrst ops
  | "RDKS" => asmN .rdks ops
  | "CLR" => asmR1 pseudoClr ops
  | "KMLOAD" => (ops.mapM AsmOperand.imm8).map pseudoKmload
  | _ => none

/-- A command's mnemonic (R76). -/
def mnemonicOf : Instr → String
  | .ldi _ _ => "LDI"
  | .mov _ _ => "MOV"
  | .rd _ => "RD"
  | .sub _ _ => "SUB"
  | .isub _ _ => "ISUB"
  | .sbx _ _ => "SBX"
  | .isbx _ _ => "ISBX"
  | .perm _ _ => "PERM"
  | .iperm _ _ => "IPERM"
  | .xor _ _ _ => "XOR"
  | .round _ _ _ => "ROUND"
  | .iround _ _ _ => "IROUND"
  | .kmclr => "KMCLR"
  | .kmpush _ => "KMPUSH"
  | .ksched _ => "KSCHED"
  | .kwin _ _ => "KWIN"
  | .enc _ _ => "ENC"
  | .dec _ _ => "DEC"
  | .decs _ _ => "DECS"
  | .stat => "STAT"
  | .clrst => "CLRST"
  | .rdks => "RDKS"

/-- A command's operands in the order of R82. -/
def operandsOf : Instr → List AsmOperand
  | .ldi d v => [.reg d, .num v.toNat]
  | .mov d s | .sub d s | .isub d s | .perm d s | .iperm d s | .enc d s | .dec d s | .decs d s =>
    [.reg d, .reg s]
  | .rd s => [.reg s]
  | .sbx d v | .isbx d v | .kwin d v => [.reg d, .num v.toNat]
  | .xor d s t | .round d s t | .iround d s t => [.reg d, .reg s, .reg t]
  | .kmpush v | .ksched v => [.num v.toNat]
  | .kmclr | .stat | .clrst | .rdks => []

/-! ## Text (R82) -/

/-- A space, tab or carriage return. -/
def isBlank (c : Char) : Bool := c == ' ' || c == '\t' || c == '\r'

/-- Without the blanks at either end. -/
def trimBlanks (cs : List Char) : List Char :=
  ((cs.dropWhile isBlank).reverse.dropWhile isBlank).reverse

/-- Split at the commas that stand outside brackets; `depth` counts the open ones and `cur` is the
piece so far, reversed. -/
def splitCommas : Nat → List Char → List Char → List (List Char)
  | _, cur, [] => [cur.reverse]
  | depth, cur, c :: cs =>
    if c == ',' && depth == 0 then cur.reverse :: splitCommas depth [] cs
    else if c == '[' then splitCommas (depth + 1) (c :: cur) cs
    else if c == ']' then splitCommas (depth - 1) (c :: cur) cs
    else splitCommas depth (c :: cur) cs

/-- A digit's value in a base up to 16. -/
def digitValue (base : Nat) (c : Char) : Option Nat :=
  let v :=
    if '0'.toNat ≤ c.toNat ∧ c.toNat ≤ '9'.toNat then c.toNat - '0'.toNat
    else if 'A'.toNat ≤ c.toNat ∧ c.toNat ≤ 'F'.toNat then c.toNat - 'A'.toNat + 10
    else if 'a'.toNat ≤ c.toNat ∧ c.toNat ≤ 'f'.toNat then c.toNat - 'a'.toNat + 10
    else base
  if v < base then some v else none

/-- One or more digits, most significant first. -/
def parseDigits (base : Nat) : List Char → Option Nat
  | [] => none
  | cs => cs.foldl (fun acc c => acc.bind fun n => (digitValue base c).map (n * base + ·)) (some 0)

/-- An immediate: "decimal, or in hex with a `0x` prefix". -/
def parseNumber : List Char → Option Nat
  | '0' :: 'x' :: cs => parseDigits 16 cs
  | cs => parseDigits 10 cs

/-- An operand's text, blanks trimmed. -/
def parseOperand (cs : List Char) : Option AsmOperand :=
  match cs with
  | ['b', '0'] => some (.reg .b0)
  | ['b', '1'] => some (.reg .b1)
  | ['b', '2'] => some (.reg .b2)
  | ['b', '3'] => some (.reg .b3)
  | '[' :: rest =>
    match rest.reverse with
    | ']' :: inner =>
      ((splitCommas 0 [] inner.reverse).mapM fun p => parseNumber (trimBlanks p)).map .state
    | _ => none
  | cs => (parseNumber cs).map .num

/-- One line of assembly: a comment from `;` on, then nothing or `MNEMONIC operands`. -/
def assembleLine (line : List Char) : Option (List Instr) :=
  let body := trimBlanks (line.takeWhile (· != ';'))
  if body.isEmpty then some []
  else
    let mnemonic := body.takeWhile fun c => !isBlank c
    let rest := trimBlanks (body.dropWhile fun c => !isBlank c)
    if rest.isEmpty then assemble (String.ofList mnemonic) []
    else
      ((splitCommas 0 [] rest).mapM fun p => parseOperand (trimBlanks p)).bind
        (assemble (String.ofList mnemonic))

/-- "The assembler encodes a command as
`(op << 24) | (rd << 22) | (rs << 20) | (rt << 18) | imm`", a field the format does not use being 0
(R82). -/
def assembledWord (op : BitVec 8) (rd rs rt : BitVec 2) (imm : BitVec 16) : Word :=
  (op.setWidth 32 <<< 24) ||| (rd.setWidth 32 <<< 22) ||| (rs.setWidth 32 <<< 20)
    ||| (rt.setWidth 32 <<< 18) ||| imm.setWidth 32

/-! ## Issuing commands in order (20_memory.md R56) -/

/-- The commands one after another, each on the state the one before it left, whatever its error
code (60_exceptions.md R314). The handshake between them is `step`'s. -/
def issueAll : List Instr → State → Result
  | [], s => .next s
  | i :: is, s =>
    match exec i s with
    | .next t => issueAll is t
    | .fault f => .fault f
    | .refused r => .refused r

end Sys2Proof.Machine
end

