-- ==== Sys2Proof/WellFormed.lean ====
section
/-! DEFINITION. Which command words are legal, from the format masks of 30_encoding.md R72 and the
opcode map of R76 alone. The decoder does not use this table: that the two agree is a statement. An
`Instr` needs no check of its own, since its operands' types admit exactly what the fields admit. -/

namespace Sys2Proof

/-- The seven formats of 30_encoding.md R72. -/
inductive Format where
  | r3 | r2 | r1s | i16 | i8d | i8 | n
deriving DecidableEq, Repr

/-- A format's mask: the opcode and every reserved bit of the format (R72). -/
def Format.mask : Format → Word
  | .r3  => 0xFF03FFFF
  | .r2  => 0xFF0FFFFF
  | .r1s => 0xFFCFFFFF
  | .i16 => 0xFF3F0000
  | .i8d => 0xFF3FFF00
  | .i8  => 0xFFFFFF00
  | .n   => 0xFFFFFFFF

/-- One row of the opcode map (R76). -/
structure OpRow where
  op       : BitVec 8
  mnemonic : String
  format   : Format
deriving DecidableEq, Repr

/-- The opcode map of R76. -/
def opcodeMap : List OpRow :=
  [⟨0x01, "LDI", .i16⟩, ⟨0x02, "MOV", .r2⟩, ⟨0x03, "RD", .r1s⟩] ++
  [⟨0x10, "SUB", .r2⟩, ⟨0x11, "ISUB", .r2⟩, ⟨0x12, "SBX", .i8d⟩, ⟨0x13, "ISBX", .i8d⟩] ++
  [⟨0x20, "PERM", .r2⟩, ⟨0x21, "IPERM", .r2⟩] ++
  [⟨0x30, "XOR", .r3⟩, ⟨0x31, "ROUND", .r3⟩, ⟨0x32, "IROUND", .r3⟩] ++
  [⟨0x40, "KMCLR", .n⟩, ⟨0x41, "KMPUSH", .i8⟩, ⟨0x42, "KSCHED", .i8⟩, ⟨0x43, "KWIN", .i8d⟩] ++
  [⟨0x50, "ENC", .r2⟩, ⟨0x51, "DEC", .r2⟩, ⟨0x52, "DECS", .r2⟩] ++
  [⟨0x60, "STAT", .n⟩, ⟨0x61, "CLRST", .n⟩, ⟨0x62, "RDKS", .n⟩]

/-- `op << 24` for a row (R72). -/
def OpRow.matchWord (r : OpRow) : Word := r.op.setWidth 32 <<< 24

/-- The word's opcode is in the map (R78 lists the others). -/
def opcodeAssigned (w : Word) : Bool :=
  opcodeMap.any fun r => w >>> 24 == r.op.setWidth 32

/-- No reserved bit of the format of the word's opcode is set (R77); true of a word whose opcode
has no format. -/
def reservedBitsClear (w : Word) : Bool :=
  opcodeMap.all fun r => w >>> 24 != r.op.setWidth 32 || w &&& r.format.mask == r.matchWord

/-- "A word `w` with opcode `op` is legal when `(w AND mask) = (op << 24)`" (R72). -/
def legalWord (w : Word) : Bool :=
  opcodeMap.any fun r => w &&& r.format.mask == r.matchWord

end Sys2Proof
end

