-- ==== Sys2Proof/Safety.lean ====
section
/-! DEFINITION. What counts as a good state, and the words claims use for what a command keeps. -/

namespace Sys2Proof.Machine

/-! ## Good states -/

/-- A code some command produces: 4 and 8..15 never, and 3 only under the strict policy
(60_exceptions.md R301, 93_implementation_defined.md I9). -/
def producedCode (c : BitVec 4) : Prop :=
  c ≠ 4 ∧ c.toNat < 8 ∧ (c = 3 → Config.chip.ksStrict = true)

/-- The key-material buffer: the list is canonical, every written cell exists, every cell below
KM_LEN has been written, and KM_LEN is at most KM_DEPTH (10_state.md R26). -/
structure BufferInv (s : State) : Prop where
  canonical : s.km.wf
  cells_exist : ∀ x ∈ s.km, x.1 < Config.chip.kmDepth
  written : ∀ a < s.kmLen.toNat, (s.km.read a).isSome = true
  length_le : s.kmLen.toNat ≤ Config.chip.kmDepth

/-- "`NK = 0` or `NK + 3 <= KM_LEN`" (10_state.md R27). -/
def ScheduleInv (s : State) : Prop := s.nk = 0 ∨ s.nk.toNat + 3 ≤ s.kmLen.toNat

/-- FIRSTERR is a produced error's code while STICKY is set and 0 while it is clear
(10_state.md R28), and `rsp_err` is a produced code. -/
structure StatusInv (s : State) : Prop where
  set_code : s.status.sticky = true → producedCode s.status.firstErr ∧ s.status.firstErr ≠ 0
  clear_code : s.status.sticky = false → s.status.firstErr = 0
  response_code : producedCode s.rspErr

/-- The handshake: at most one command is in flight and none is accepted while it is
(30_encoding.md R70), and the block is ready from the response on (60_exceptions.md R318). -/
structure PortInv (s : State) : Prop where
  ready_idle : s.cmdReady = true → s.inFlight = none
  response_ready : s.rspValid = true → s.cmdReady = true

/-- What every state a run reaches satisfies. -/
structure Inv (s : State) : Prop where
  buffer : BufferInv s
  schedule : ScheduleInv s
  status : StatusInv s
  port : PortInv s

/-! ## Frames -/

/-- The block registers but `rd` are unchanged. -/
def BlocksKeptBut (rd : Reg) (s t : State) : Prop := ∀ r, r ≠ rd → t.readB r = s.readB r

/-- Every block register is unchanged. -/
def BlocksKept (s t : State) : Prop := ∀ r, t.readB r = s.readB r

/-- Every KM cell is unchanged. -/
def CellsKept (s t : State) : Prop := ∀ a, t.cell a = s.cell a

/-- KM_LEN and NK are unchanged. -/
def LengthsKept (s t : State) : Prop := t.kmLen = s.kmLen ∧ t.nk = s.nk

/-- The ports' handshake, the command in flight, the host's moves and the model's own counters are
unchanged: a command's rule touches none of them, `step` does. -/
def PortsKept (s t : State) : Prop :=
  t.rspValid = s.rspValid ∧ t.cmdReady = s.cmdReady ∧ t.inFlight = s.inFlight ∧ t.host = s.host ∧
    t.kmEpoch = s.kmEpoch ∧ t.draws = s.draws

/-- The response of a completion without error. -/
def Responds (t : State) (v : BitVec 16) : Prop := t.rspErr = 0 ∧ t.rspData = v

/-- The command completes without error, writing `v` to `B[rd]` and returning it. -/
def CompletesWith (i : Instr) (s : State) (rd : Reg) (v : Block) : Prop :=
  ∃ t, exec i s = .next t ∧ t.readB rd = v ∧ Responds t v

/-- The response of a completion that raised, and STATUS after it (60_exceptions.md R300, R302):
the code and data 0, the first error kept, everything else unchanged. -/
def RaisedOnly (s : State) (code : BitVec 4) (t : State) : Prop :=
  t.rspErr = code ∧ t.rspData = 0 ∧
    t.status = (if s.status.sticky then s.status else ⟨true, code⟩) ∧
    BlocksKept s t ∧ CellsKept s t ∧ LengthsKept s t ∧ PortsKept s t

/-- The command completes with the error and has no other effect. -/
def CompletesRaising (i : Instr) (s : State) (code : BitVec 4) : Prop :=
  ∃ t, exec i s = .next t ∧ RaisedOnly s code t

/-- The architectural state of two states is the same: registers, cells, lengths, STATUS and the
held response, whatever their ports do. -/
def SameArchitecture (s t : State) : Prop :=
  BlocksKept s t ∧ CellsKept s t ∧ LengthsKept s t ∧ t.status = s.status ∧ t.rspErr = s.rspErr ∧
    t.rspData = s.rspData

/-- The ports of two states are the same: the handshake, the command in flight, what the host will do,
and the number of the next free value. -/
def SamePorts (s u : State) : Prop :=
  u.rspValid = s.rspValid ∧ u.cmdReady = s.cmdReady ∧ u.inFlight = s.inFlight ∧ u.host = s.host ∧
    u.draws = s.draws

/-! ## Which registers a command names (10_state.md R23) -/

/-- The block register a command writes. -/
def destOf : Instr → Option Reg
  | .ldi d _ | .mov d _ | .sub d _ | .isub d _ | .sbx d _ | .isbx d _ | .perm d _ | .iperm d _
  | .xor d _ _ | .round d _ _ | .iround d _ _ | .kwin d _ | .enc d _ | .dec d _ | .decs d _ => some d
  | .rd _ | .kmclr | .kmpush _ | .ksched _ | .stat | .clrst | .rdks => none

/-- The block registers a command reads. -/
def sourcesOf : Instr → List Reg
  | .mov _ s | .rd s | .sub _ s | .isub _ s | .perm _ s | .iperm _ s | .enc _ s | .dec _ s
  | .decs _ s => [s]
  | .xor _ s t | .round _ s t | .iround _ s t => [s, t]
  | .ldi _ _ | .sbx _ _ | .isbx _ _ | .kwin _ _ | .kmclr | .kmpush _ | .ksched _ | .stat | .clrst
  | .rdks => []

/-- The two states agree but for the KM cells at KM_LEN and above: the hidden cells
(43_key_schedule.md R196). -/
def AgreeBelowLength (s u : State) : Prop :=
  u.b = s.b ∧ u.kmLen = s.kmLen ∧ u.nk = s.nk ∧ u.status = s.status ∧ u.rspErr = s.rspErr ∧
    u.rspData = s.rspData ∧ ∀ a < s.kmLen.toNat, u.cell a = s.cell a

end Sys2Proof.Machine
end

