-- ==== Sys2Proof/Certificates/Slice0/Obligations.lean ====
section
/-! DEFINITION. The statements for the provers. Each docstring names the rules of spec/ it formalises. -/

open Sys2Proof Sys2Proof.Machine

/-! ## Encoding (30_encoding.md) -/

/-- The decoder reads back every command from its word, also through the opcode table's numbering
(30_encoding.md §2 to §4). -/
def Obligations.DecodeInvertsEncode : Prop :=
  ∀ i : Instr, decode (encode i) = .ok i ∧ decodeTableWord 32 (encode i).toNat = some i

/-- A word that decodes is the word of the command it decodes to: each command has one word
(30_encoding.md §2 to §4). -/
def Obligations.EncodeInvertsDecode : Prop :=
  ∀ (w : Word) (i : Instr), decode w = .ok i → encode i = w

/-- The decoder accepts exactly the words that the masks of R72 and the map of R76 make legal, and
rejects each other word by the name of what is wrong with it (30_encoding.md §5). -/
def Obligations.DecoderAcceptsExactlyTheLegalWords : Prop :=
  ∀ w : Word,
    ((∃ i, decode w = .ok i) ↔ legalWord w = true) ∧
    (decode w = .error .unassignedOpcode ↔ opcodeAssigned w = false) ∧
    (decode w = .error .reservedBits ↔ opcodeAssigned w = true ∧ reservedBitsClear w = false)

/-- R78: an unassigned opcode raises IllegalCommand whatever the other bits, with no other effect;
the all-zeros and all-ones words are illegal. -/
def Obligations.UnassignedOpcodesRaiseIllegalCommand : Prop :=
  (∀ (w : Word) (s : State),
    (let op := (w >>> 24).toNat
     op = 0x00 ∨ (0x04 ≤ op ∧ op ≤ 0x0F) ∨ (0x14 ≤ op ∧ op ≤ 0x1F) ∨ (0x22 ≤ op ∧ op ≤ 0x2F) ∨
       (0x33 ≤ op ∧ op ≤ 0x3F) ∨ (0x44 ≤ op ∧ op ≤ 0x4F) ∨ (0x53 ≤ op ∧ op ≤ 0x5F) ∨
       (0x63 ≤ op ∧ op ≤ 0xFF)) →
    ∃ t, executeWord w s = .next t ∧ RaisedOnly s 5 t) ∧
  (∀ s, ∃ t, executeWord 0x00000000 s = .next t ∧ RaisedOnly s 5 t) ∧
  (∀ s, ∃ t, executeWord 0xFFFFFFFF s = .next t ∧ RaisedOnly s 5 t)

/-- R77: a mapped opcode with a 1 in any bit its format marks reserved raises IllegalCommand and has
no other effect. -/
def Obligations.ReservedBitsRaiseIllegalCommand : Prop :=
  ∀ r ∈ opcodeMap, ∀ (w : Word) (s : State), (w >>> 24).toNat = r.op.toNat →
    w &&& r.format.mask &&& 0x00FFFFFF ≠ 0 →
    ∃ t, executeWord w s = .next t ∧ RaisedOnly s 5 t

/-- Words written out from 30_encoding.md §2 to §4 decode to the commands they stand for. -/
def Obligations.WordsOfTheSpecDecode : Prop :=
  decode 0x01004EA1 = .ok (.ldi .b0 0x4EA1) ∧ decode 0x03200000 = .ok (.rd .b2) ∧
  decode 0x11F00000 = .ok (.isub .b3 .b3) ∧ decode 0x12C0000F = .ok (.sbx .b3 15) ∧
  decode 0x21500000 = .ok (.iperm .b1 .b1) ∧ decode 0x30F40000 = .ok (.xor .b3 .b3 .b1) ∧
  decode 0x41000009 = .ok (.kmpush 9) ∧ decode 0x43400004 = .ok (.kwin .b1 4) ∧
  decode 0x51900000 = .ok (.dec .b2 .b1) ∧ decode 0x62000000 = .ok .rdks

/-- A step whose command in flight has waited out its latency is that command's meaning, with the
handshake around it: `rsp_valid` pulsed, nothing in flight, the host's moves held (30_encoding.md §1,
§6). The model's reading, log 13: `cmd_ready` rises at that same edge; log 14: both pins are so also
where the host asserts `rst` next. The model's choice, log 8: `withFetchWord` is such a state. -/
def Obligations.StepRunsTheDecodedCommand : Prop :=
  (∀ (s : State) (w : Word) (i : Instr), s.rst = false → s.inFlight = some ⟨w, 0⟩ →
    decode w = .ok i →
    step s = match exec i s with
      | .next u => .next { u with inFlight := none, cmdReady := true, rspValid := true,
                                  host := s.hostHolds }
      | .fault f => .fault f
      | .refused r => .refused r) ∧
  (∀ (s : State) (w : Word), (s.withFetchWord 32 w.toNat).rst = false ∧
    (s.withFetchWord 32 w.toNat).inFlight = some ⟨w, 0⟩ ∧
    (s.withFetchWord 32 w.toNat).hostHolds = s.host ∧
    SameArchitecture s (s.withFetchWord 32 w.toNat))

/-- A command's word, by the assembler's formula, and the command a line in the operand order of R82
stands for; `CLR` is `LDI rd, 0x0000` (30_encoding.md §8). -/
def Obligations.AssemblerAndEncodingAgree : Prop :=
  (∀ i, assemble (mnemonicOf i) (operandsOf i) = some [i]) ∧
  (∀ r, assemble "CLR" [.reg r] = some [.ldi r 0]) ∧
  (∀ d v, encode (.ldi d v) = assembledWord 0x01 d.bits 0 0 v) ∧
  (∀ r, encode (.rd r) = assembledWord 0x03 0 r.bits 0 0) ∧
  (∀ d r, encode (.sub d r) = assembledWord 0x10 d.bits r.bits 0 0) ∧
  (∀ d r q, encode (.iround d r q) = assembledWord 0x32 d.bits r.bits q.bits 0) ∧
  (∀ v, encode (.ksched v) = assembledWord 0x42 0 0 0 (v.setWidth 16)) ∧
  (∀ d v, encode (.kwin d v) = assembledWord 0x43 d.bits 0 0 (v.setWidth 16))

/-! ## Packing (00_scope.md R9) -/

/-- R9: `pack` as a number, `nib` as its inverse, and the state bit index. -/
def Obligations.PackedStateLayout : Prop :=
  (∀ n0 n1 n2 n3 : Nibble, (pack n0 n1 n2 n3).toNat =
    n0.toNat * 2 ^ 12 + n1.toNat * 2 ^ 8 + n2.toNat * 2 ^ 4 + n3.toNat) ∧
  (∀ n0 n1 n2 n3 : Nibble, nib (pack n0 n1 n2 n3) 0 = n0 ∧ nib (pack n0 n1 n2 n3) 1 = n1 ∧
    nib (pack n0 n1 n2 n3) 2 = n2 ∧ nib (pack n0 n1 n2 n3) 3 = n3) ∧
  (∀ v : Block, pack (nib v 0) (nib v 1) (nib v 2) (nib v 3) = v) ∧
  (∀ v : Block, ∀ j < 4, ∀ i < 4, stateBit v (4 * j + i) = (nib v j).getLsbD (3 - i)) ∧
  (∀ v : Block, ∀ sb < 16, stateBit v sb = v.getLsbD (15 - sb)) ∧
  pack 4 14 10 1 = 0x4EA1

/-! ## Data movement and status (45_move_status.md) -/

/-- LDI, MOV and RD complete in every state: LDI writes and returns its immediate, MOV the source
register's value, and RD returns the register (45_move_status.md §1). -/
def Obligations.DataMovementCompletes : Prop :=
  ∀ (s : State) (rd rs : Reg) (imm16 : BitVec 16),
    CompletesWith (.ldi rd imm16) s rd imm16 ∧
    CompletesWith (.mov rd rs) s rd (s.readB rs) ∧
    ∃ t, exec (.rd rs) s = .next t ∧ Responds t (s.readB rs)

/-- STAT, CLRST and RDKS complete in every state, with the responses of 45_move_status.md §2; CLRST
clears STATUS. -/
def Obligations.StatusCommandsComplete : Prop :=
  ∀ s : State,
    (∃ t, exec .stat s = .next t ∧ Responds t s.status.word ∧ t.status = s.status) ∧
    (∃ t, exec .clrst s = .next t ∧ Responds t 0 ∧ t.status.word = 0) ∧
    (∃ t, exec .rdks s = .next t ∧ t.rspErr = 0 ∧ t.rspData.extractLsb' 8 8 = s.nk ∧
      t.rspData.extractLsb' 0 8 = s.kmLen)

/-- The word STAT returns: STICKY in bit 0, FIRSTERR in bits 7:4, bits 3:1 and 15:8 zero; after a first
error of code 1 it is 0x0011 (10_state.md §5). -/
def Obligations.StatusWordFields : Prop :=
  (∀ st : Status, st.word.getLsbD 0 = st.sticky ∧ st.word.extractLsb' 4 4 = st.firstErr ∧
    st.word.extractLsb' 1 3 = 0 ∧ st.word.extractLsb' 8 8 = 0) ∧
  (Status.clear.record .outOfRange).word = 0x0011

/-- RD, STAT and RDKS write nothing but the response, and CLRST nothing but STATUS and the response
(10_state.md §1, 45_move_status.md §2). -/
def Obligations.ReadOutAndClearFrame : Prop :=
  ∀ (i : Instr) (s t : State), (∃ r, i = .rd r) ∨ i = .stat ∨ i = .rdks ∨ i = .clrst →
    exec i s = .next t →
    BlocksKept s t ∧ CellsKept s t ∧ LengthsKept s t ∧ PortsKept s t ∧
    (i ≠ .clrst → t.status = s.status)

/-! ## Substitution (40_substitution.md) -/

/-- SUB and ISUB complete in every state with the substituted value (40_substitution.md §3). -/
def Obligations.SubstitutionCommandsComplete : Prop :=
  ∀ (s : State) (rd rs : Reg),
    CompletesWith (.sub rd rs) s rd (substitutions Config.chip.sbox (s.readB rs)) ∧
    CompletesWith (.isub rd rs) s rd (inverseSubstitutions Config.chip.sbox (s.readB rs))

/-- SBX and ISBX complete on 0..15 with the table's nibble zero-extended, and raise OutOfRange on
16..255 with no other effect (40_substitution.md §3). -/
def Obligations.ScalarLookupsComplete : Prop :=
  ∀ (s : State) (rd : Reg) (v : BitVec 8),
    (v.toNat ≤ 15 →
      CompletesWith (.sbx rd v) s rd ((Config.chip.sbox (v.setWidth 4)).setWidth 16) ∧
      CompletesWith (.isbx rd v) s rd ((Config.chip.sbox.symm (v.setWidth 4)).setWidth 16)) ∧
    (16 ≤ v.toNat → CompletesRaising (.sbx rd v) s 1 ∧ CompletesRaising (.isbx rd v) s 1)

/-- R103: the four nibbles are four independent lanes, for every S-box. -/
def Obligations.SubstitutionsActLaneByLane : Prop :=
  ∀ (S : SBox) (v : Block),
    (∀ j < 4, nib (substitutions S v) j = S (nib v j) ∧
      nib (inverseSubstitutions S v) j = S.symm (nib v j)) ∧
    substitutions S v = pack (S (nib v 0)) (S (nib v 1)) (S (nib v 2)) (S (nib v 3)) ∧
    inverseSubstitutions S v =
      pack (S.symm (nib v 0)) (S.symm (nib v 1)) (S.symm (nib v 2)) (S.symm (nib v 3))

/-- R108: the two S-box layers are mutual inverses for every S-box, and SUB then ISUB, or ISUB then
SUB, on one register gives its value back. -/
def Obligations.SboxLayersAreMutualInverses : Prop :=
  (∀ (S : SBox) (n : Nibble), inverseSubstitute S (substitute S n) = n ∧
    substitute S (inverseSubstitute S n) = n) ∧
  (∀ (S : SBox) (v : Block), inverseSubstitutions S (substitutions S v) = v ∧
    substitutions S (inverseSubstitutions S v) = v) ∧
  (∀ (s : State) (r : Reg),
    (∃ t u, exec (.sub r r) s = .next t ∧ exec (.isub r r) t = .next u ∧ BlocksKept s u) ∧
    (∃ t u, exec (.isub r r) s = .next t ∧ exec (.sub r r) t = .next u ∧ BlocksKept s u))

/-! ## Permutation (41_permutation.md) -/

/-- PERM and IPERM complete in every state with the permuted value (41_permutation.md §3). -/
def Obligations.PermutationCommandsComplete : Prop :=
  ∀ (s : State) (rd rs : Reg),
    CompletesWith (.perm rd rs) s rd (permute (s.readB rs)) ∧
    CompletesWith (.iperm rd rs) s rd (inversePermute (s.readB rs))

/-- R130 and R131: the two tables, the closed formula, and the positional inverse. -/
def Obligations.PermutationTables : Prop :=
  permTable = [0, 4, 8, 12, 1, 5, 9, 13, 2, 6, 10, 14, 3, 7, 11, 15] ∧
  (∀ j < 4, ∀ i < 4, permTable.getD (4 * j + i) 0 = 4 * i + j) ∧
  (∀ i < 16, permTable.getD (invPermTable.getD i 0) 0 = i) ∧
  (∀ i < 16, invPermTable.getD (permTable.getD i 0) 0 = i) ∧
  invPermTable = [0, 4, 8, 12, 1, 5, 9, 13, 2, 6, 10, 14, 3, 7, 11, 15]

/-- R133: the algorithm of R132 is the bit permutation that sends state bit `b` to `PERM_TABLE[b]`,
the transpose of the 4 by 4 bit matrix, and the inverse permutation is the same function. -/
def Obligations.PermuteClosedForm : Prop :=
  ∀ v : Block,
    (∀ b < 16, stateBit (permute v) (permTable.getD b 0) = stateBit v b) ∧
    (∀ sb < 16, (permute v).getLsbD (15 - permTable.getD sb 0) = v.getLsbD (15 - sb)) ∧
    (∀ j < 4, ∀ i < 4, (nib (permute v) j).getLsbD (3 - i) = (nib v i).getLsbD (3 - j)) ∧
    inversePermute v = permute v

/-- R136: bijectivity, linearity and involution of the permutation. -/
def Obligations.PermutationLaws : Prop :=
  ∀ a b : Block,
    inversePermute (permute a) = a ∧ permute (inversePermute a) = a ∧
    permute (a ^^^ b) = permute a ^^^ permute b ∧
    inversePermute (a ^^^ b) = inversePermute a ^^^ inversePermute b ∧
    permute (permute a) = a

/-! ## Key mixing and rounds (42_keymix_round.md) -/

/-- XOR, ROUND and IROUND complete in every state with the values of R160 and R162
(42_keymix_round.md §1, §2). -/
def Obligations.RoundCommandsComplete : Prop :=
  ∀ (s : State) (rd rs rt : Reg),
    CompletesWith (.xor rd rs rt) s rd (s.readB rs ^^^ s.readB rt) ∧
    CompletesWith (.round rd rs rt) s rd
      (permute (substitutions Config.chip.sbox (s.readB rs ^^^ s.readB rt))) ∧
    CompletesWith (.iround rd rs rt) s rd
      (inverseSubstitutions Config.chip.sbox (inversePermute (s.readB rs)) ^^^ s.readB rt)

/-- R166: mixing the same key twice gives the state back, at the function and at the command level; with
the key in the mixed register itself the first XOR leaves zero (42_keymix_round.md §1). -/
def Obligations.KeyMixingIsAnInvolution : Prop :=
  (∀ x k : Block, keyMix (keyMix x k) k = x) ∧
  (∀ (s : State) (b k : Reg), b ≠ k → ∃ t u, exec (.xor b b k) s = .next t ∧
    exec (.xor b b k) t = .next u ∧ BlocksKept s u) ∧
  (∀ (s : State) (b k : Reg), CompletesWith (.xor b k k) s b 0)

/-- R164: the round and the inverse round undo each other for every S-box, state and key. -/
def Obligations.RoundsUndoEachOther : Prop :=
  ∀ (S : SBox) (s k : Block),
    inverseRound S (fullRound S s k) k = s ∧ fullRound S (inverseRound S s k) k = s

/-- ROUND is XOR, SUB, PERM through a scratch register, up to the scratch register
(42_keymix_round.md §2). -/
def Obligations.RoundIsMixSubstitutePermute : Prop :=
  ∀ (s : State) (rd rs rt q : Reg), ∃ t t1 t2 t3,
    exec (.round rd rs rt) s = .next t ∧
    exec (.xor q rs rt) s = .next t1 ∧ exec (.sub q q) t1 = .next t2 ∧
    exec (.perm rd q) t2 = .next t3 ∧
    t3.readB rd = t.readB rd ∧ (∀ r, r ≠ rd → r ≠ q → t3.readB r = t.readB r) ∧
    t3.rspErr = t.rspErr ∧ t3.rspData = t.rspData

/-! ## Key schedule (43_key_schedule.md) -/

/-- KMCLR completes in every state: KM_LEN and NK become 0, and no cell, block register or STATUS bit
changes (43_key_schedule.md §2). -/
def Obligations.ClearKeysCompletes : Prop :=
  ∀ s : State, ∃ t, exec .kmclr s = .next t ∧ Responds t 0 ∧ t.kmLen = 0 ∧ t.nk = 0 ∧
    CellsKept s t ∧ BlocksKept s t ∧ t.status = s.status ∧ PortsKept s t

/-- KMPUSH of a nibble into a buffer that is not full completes: cell KM_LEN holds the nibble, every
other cell is unchanged, KM_LEN is one more and is the response, and NK, STATUS and the block
registers are unchanged (43_key_schedule.md §2). -/
def Obligations.PushAppendsOneCell : Prop :=
  ∀ (s : State) (v : BitVec 8), v.toNat ≤ 15 → s.kmLen.toNat < Config.chip.kmDepth →
    ∃ t, exec (.kmpush v) s = .next t ∧
      t.cell s.kmLen.toNat = v.setWidth 4 ∧
      (∀ a, a ≠ s.kmLen.toNat → t.cell a = s.cell a) ∧
      t.kmLen.toNat = s.kmLen.toNat + 1 ∧ t.rspErr = 0 ∧ t.rspData.toNat = s.kmLen.toNat + 1 ∧
      t.nk = s.nk ∧ t.status = s.status ∧ BlocksKept s t ∧ PortsKept s t

/-- KMPUSH raises OutOfRange on 16..255, before it looks at the buffer, and KeyMaterialFull on a nibble
when the buffer holds KM_DEPTH nibbles; nothing else changes (43_key_schedule.md §2,
60_exceptions.md §3). -/
def Obligations.PushRaises : Prop :=
  ∀ (s : State) (v : BitVec 8),
    (16 ≤ v.toNat → CompletesRaising (.kmpush v) s 1) ∧
    (v.toNat ≤ 15 → s.kmLen.toNat = Config.chip.kmDepth → CompletesRaising (.kmpush v) s 7)

/-- KSCHED: NK becomes `rounds` where `rounds` is 0 or `rounds + 3 <= KM_LEN`; else NK becomes 0 silently
or InsufficientKeyMaterial is raised, by the policy. NK is the response, and nothing else changes
(43_key_schedule.md §2). -/
def Obligations.ScheduleSetsItsLength : Prop :=
  ∀ (s : State) (r : BitVec 8),
    let sets := fun n : BitVec 8 => ∃ t, exec (.ksched r) s = .next t ∧ t.nk = n ∧
      Responds t (n.setWidth 16) ∧ t.kmLen = s.kmLen ∧ t.status = s.status ∧ BlocksKept s t ∧
      CellsKept s t ∧ PortsKept s t
    (r = 0 → sets 0) ∧
    (r ≠ 0 → r.toNat + 3 ≤ s.kmLen.toNat → sets r) ∧
    (r ≠ 0 → s.kmLen.toNat < r.toNat + 3 →
      if Config.chip.ksStrict then CompletesRaising (.ksched r) s 3 else sets 0)

/-- KWIN below NK completes with the window, `KM[i]` being nibble 0; at NK or above it raises KeyIndex
with no other effect (43_key_schedule.md §2). -/
def Obligations.WindowIsExtracted : Prop :=
  ∀ (s : State) (rd : Reg) (v : BitVec 8), Inv s →
    (v.toNat < s.nk.toNat → CompletesWith (.kwin rd v) s rd
      (pack (s.cell v.toNat) (s.cell (v.toNat + 1)) (s.cell (v.toNat + 2))
        (s.cell (v.toNat + 3)))) ∧
    (s.nk.toNat ≤ v.toNat → CompletesRaising (.kwin rd v) s 6)

/-- R190: `gen_keys` gives `rounds` windows of four consecutive nibbles where the material holds them,
and the empty list elsewhere, also for a negative `rounds`. -/
def Obligations.GenKeysSlicesWindows : Prop :=
  ∀ (M : List Nibble) (rounds : Int),
    (rounds < (M.length : Int) - 2 →
      (genKeys M rounds).length = rounds.toNat ∧
      ∀ i < rounds.toNat, ∃ a b c d, M[i]? = some a ∧ M[i + 1]? = some b ∧ M[i + 2]? = some c ∧
        M[i + 3]? = some d ∧ (genKeys M rounds)[i]? = some (pack a b c d)) ∧
    ((M.length : Int) - 2 ≤ rounds → genKeys M rounds = []) ∧
    (0 ≤ rounds → (rounds < (M.length : Int) - 2 ↔ rounds + 3 ≤ (M.length : Int))) ∧
    genKeys M 0 = []

/-- Window i+1 starts with the last three nibbles of window i (43_key_schedule.md §1). -/
def Obligations.WindowsOverlapByThree : Prop :=
  ∀ (s : State) (i : Nat), ∀ j < 3, nib (s.window (i + 1)) j = nib (s.window i) (j + 1)

/-- R197: in every good state the schedule the block holds is `gen_keys` of the material and NK, and
after KSCHED completes without error, under either policy, it is `gen_keys` of the material and
`rounds`. -/
def Obligations.ScheduleIsGenKeys : Prop :=
  (∀ s : State, Inv s → s.keys = genKeys s.material s.nk.toNat) ∧
  (∀ (strict : Bool) (s t : State) (r : BitVec 8), schedule strict r s = .next t → t.rspErr = 0 →
    t.keys = genKeys t.material r.toNat ∧ t.material = s.material)

/-- R336: KMPUSH leaves NK and every window of the schedule as they were, and KMCLR empties the
schedule. -/
def Obligations.ScheduleSurvivesPushNotClear : Prop :=
  (∀ (s t : State) (v : BitVec 8), Inv s → exec (.kmpush v) s = .next t →
    t.nk = s.nk ∧ t.keys = s.keys) ∧
  (∀ s t : State, exec .kmclr s = .next t → t.nk = 0 ∧ t.keys = [])

/-- R83: CLR is LDI of zero, and KMLOAD is KMCLR and then one KMPUSH an operand in order; of material
that fits it completes with no error, and after it KM_LEN is the number of nibbles, NK is 0 and the
material is the one loaded. -/
def Obligations.KmloadLoadsTheMaterial : Prop :=
  (∀ r, pseudoClr r = [.ldi r 0x0000]) ∧
  (∀ vs, pseudoKmload vs = .kmclr :: vs.map (fun v => .kmpush v)) ∧
  ∀ (s : State) (ns : List Nibble), ns.length ≤ Config.chip.kmDepth →
    ∃ t, issueAll (pseudoKmload (ns.map (·.setWidth 8))) s = .next t ∧ t.rspErr = 0 ∧
      t.kmLen.toNat = ns.length ∧ t.nk = 0 ∧ t.material = ns ∧ BlocksKept s t ∧
      t.status = s.status

/-- What KMCLR, KMPUSH and KSCHED leave alone, whether they complete or raise: every block register, and
every cell but the one KMPUSH stores to, cell KM_LEN of the state before; KMPUSH leaves NK, KSCHED
leaves KM_LEN (20_memory.md §1, 43_key_schedule.md §2). -/
def Obligations.KeyCommandsFrame : Prop :=
  ∀ (i : Instr) (s t : State), i = .kmclr ∨ (∃ v, i = .kmpush v) ∨ (∃ r, i = .ksched r) →
    exec i s = .next t →
    BlocksKept s t ∧ PortsKept s t ∧ (t.rspErr = 0 → t.status = s.status) ∧
    (∀ a, ((∃ v, i = .kmpush v) → a ≠ s.kmLen.toNat) → t.cell a = s.cell a) ∧
    ((∃ v, i = .kmpush v) → t.nk = s.nk) ∧ ((∃ r, i = .ksched r) → t.kmLen = s.kmLen)

/-! ## Cipher driver (44_cipher_driver.md) -/

/-- R221: with fewer than two keys the three cipher functions raise InvalidKeyCount, and with two or
more they give a result. -/
def Obligations.CipherFunctionsNeedTwoKeys : Prop :=
  ∀ (S : SBox) (v : Block) (ks : List Block),
    (ks.length < 2 → encrypt S v ks = .error .invalidKeyCount ∧
      decrypt S v ks = .error .invalidKeyCount ∧ decryptSimple S v ks = .error .invalidKeyCount) ∧
    (2 ≤ ks.length → (∃ r, encrypt S v ks = .ok r) ∧ (∃ r, decrypt S v ks = .ok r) ∧
      ∃ r, decryptSimple S v ks = .ok r)

/-- R220: a full round for every key but the last two in order, then the partial round, then
whitening. -/
def Obligations.EncryptRoundByRound : Prop :=
  ∀ (S : SBox) (p k0 k1 k2 : Block) (ks : List Block),
    encrypt S p [k0, k1] = .ok (substitutions S (p ^^^ k0) ^^^ k1) ∧
    encrypt S p (k0 :: k1 :: k2 :: ks) =
      encrypt S (permute (substitutions S (p ^^^ k0))) (k1 :: k2 :: ks)

/-- R226: both decryptions undo encryption, for every S-box, plaintext and list of two keys or more. -/
def Obligations.DecryptionsUndoEncryption : Prop :=
  ∀ (S : SBox) (p : Block) (ks : List Block), 2 ≤ ks.length →
    ∃ c, encrypt S p ks = .ok c ∧ decrypt S c ks = .ok p ∧ decryptSimple S c ks = .ok p

/-- R227: the two decryptions are the same function of every 16-bit value. -/
def Obligations.DecryptionsAreOneFunction : Prop :=
  ∀ (S : SBox) (c : Block) (ks : List Block), 2 ≤ ks.length →
    decrypt S c ks = decryptSimple S c ks

/-- R232: the two-key cipher, both its decryptions, and the five nibbles that two keys need. -/
def Obligations.TwoKeyCipher : Prop :=
  (∀ (S : SBox) (v k0 k1 : Block),
    encrypt S v [k0, k1] = .ok (substitutions S (v ^^^ k0) ^^^ k1) ∧
    decrypt S v [k0, k1] = .ok (inverseSubstitutions S (v ^^^ k1) ^^^ k0) ∧
    decryptSimple S v [k0, k1] = encryptInv S v [k1, k0] ∧
    encryptInv S v [k1, k0] = .ok (inverseSubstitutions S (v ^^^ k1) ^^^ k0) ∧
    decrypt S (substitutions S (v ^^^ k0) ^^^ k1) [k0, k1] = .ok v ∧
    decryptSimple S (substitutions S (v ^^^ k0) ^^^ k1) [k0, k1] = .ok v) ∧
  (∀ (strict : Bool) (len : BitVec 8), scheduleLength strict 2 len = .ok 2 ↔ 5 ≤ len.toNat)

/-- ENC, DEC and DECS complete in every good state with two keys or more, writing the function of
`B[rs]` and the key schedule (44_cipher_driver.md §3). -/
def Obligations.DriverCommandsComplete : Prop :=
  ∀ (s : State) (rd rs : Reg), Inv s → 2 ≤ s.nk.toNat →
    (∃ r, encrypt Config.chip.sbox (s.readB rs) s.keys = .ok r ∧
      CompletesWith (.enc rd rs) s rd r) ∧
    (∃ r, decrypt Config.chip.sbox (s.readB rs) s.keys = .ok r ∧
      CompletesWith (.dec rd rs) s rd r) ∧
    (∃ r, decryptSimple Config.chip.sbox (s.readB rs) s.keys = .ok r ∧
      CompletesWith (.decs rd rs) s rd r)

/-- R305: ENC, DEC and DECS raise InvalidKeyCount when NK < 2, NK = 0 among them, with no other
effect. -/
def Obligations.DriverCommandsNeedTwoKeys : Prop :=
  ∀ (s : State) (rd rs : Reg), s.nk.toNat < 2 →
    CompletesRaising (.enc rd rs) s 2 ∧ CompletesRaising (.dec rd rs) s 2 ∧
    CompletesRaising (.decs rd rs) s 2

/-- DEC after ENC with the same schedule returns the plaintext, and so does DECS; on every value the
two give the same result (44_cipher_driver.md §2, §3). -/
def Obligations.DriverRoundTrip : Prop :=
  ∀ (s : State) (p c q : Reg), Inv s → 2 ≤ s.nk.toNat →
    ∃ t u v, exec (.enc c p) s = .next t ∧ exec (.dec q c) t = .next u ∧
      exec (.decs q c) t = .next v ∧ u.readB q = s.readB p ∧ v = u ∧ Responds u (s.readB p)

/-! ## Frames and errors over all commands -/

/-- The fifteen commands that write a block register change no other block register, no cell, neither
length and no port; without error STATUS is unchanged and the value written is the response, and with
an error STATUS and the response alone change (10_state.md §1, 45_move_status.md §1,
60_exceptions.md §1). -/
def Obligations.BlockWritersFrame : Prop :=
  ∀ (i : Instr) (rd : Reg) (s t : State), destOf i = some rd → exec i s = .next t →
    BlocksKeptBut rd s t ∧ CellsKept s t ∧ LengthsKept s t ∧ PortsKept s t ∧
    (t.rspErr = 0 → t.status = s.status ∧ t.rspData = t.readB rd) ∧
    (t.rspErr ≠ 0 → RaisedOnly s t.rspErr t)

/-- Whatever the word, a command that completes with an error changes nothing but STATUS and the
response, whose data is 0 (60_exceptions.md §1); and the edge at which any command completes leaves the
block ready for the next command. The model's reading, log 13: that `cmd_ready` is 1 from that edge
on; log 14: that the two pins are 1 also where the host asserts `rst` next. -/
def Obligations.ErrorsWriteOnlyStatus : Prop :=
  (∀ (w : Word) (s t : State), executeWord w s = .next t → t.rspErr ≠ 0 →
    RaisedOnly s t.rspErr t) ∧
  (∀ (w : Word) (s u : State), s.rst = false → s.inFlight = some ⟨w, 0⟩ →
    executeWord w s = .next u → ∃ t, step s = .next t ∧ t.rspValid = true ∧ t.cmdReady = true ∧
      t.inFlight = none ∧ SameArchitecture u t)

/-- R302: STATUS keeps the first error since the last CLRST, and only an error or CLRST writes it. -/
def Obligations.StatusKeepsTheFirstError : Prop :=
  ∀ (w : Word) (s t : State), executeWord w s = .next t → decode w ≠ .ok .clrst →
    t.status = if t.rspErr ≠ 0 ∧ s.status.sticky = false then ⟨true, t.rspErr⟩ else s.status

/-- R301: each error code comes from its commands and its cause alone, and codes 4 and 8..15 never
come. -/
def Obligations.EveryErrorHasItsCause : Prop :=
  ∀ (w : Word) (s t : State), executeWord w s = .next t →
    (t.rspErr = 1 ↔ ∃ d v, 16 ≤ BitVec.toNat v ∧
      (decode w = .ok (.sbx d v) ∨ decode w = .ok (.isbx d v) ∨ decode w = .ok (.kmpush v))) ∧
    (t.rspErr = 2 ↔ s.nk.toNat < 2 ∧ ∃ d r,
      decode w = .ok (.enc d r) ∨ decode w = .ok (.dec d r) ∨ decode w = .ok (.decs d r)) ∧
    (t.rspErr = 3 ↔ Config.chip.ksStrict = true ∧ ∃ r, decode w = .ok (.ksched r) ∧
      1 ≤ r.toNat ∧ s.kmLen.toNat < r.toNat + 3) ∧
    t.rspErr ≠ 4 ∧
    (t.rspErr = 5 ↔ legalWord w = false) ∧
    (t.rspErr = 6 ↔ ∃ d v, decode w = .ok (.kwin d v) ∧ s.nk.toNat ≤ BitVec.toNat v) ∧
    (t.rspErr = 7 ↔ s.kmLen.toNat = Config.chip.kmDepth ∧
      ∃ v, decode w = .ok (.kmpush v) ∧ BitVec.toNat v ≤ 15) ∧
    t.rspErr.toNat < 8

/-- R23: no command writes a block register it does not name as destination, and none reads one it does
not name as a source: with other values in the registers it does not read, the outcome differs in
those registers alone. -/
def Obligations.OnlyNamedRegistersMatter : Prop :=
  (∀ (i : Instr) (s t : State) (r : Reg), exec i s = .next t → destOf i ≠ some r →
    t.readB r = s.readB r) ∧
  (∀ (i : Instr) (s t : State) (b : BlockRegs), (∀ r ∈ sourcesOf i, b.get r = s.readB r) →
    exec i s = .next t → ∃ u, exec i { s with b := b } = .next u ∧ { u with b := t.b } = t ∧
      (∀ r, destOf i ≠ some r → u.readB r = b.get r) ∧
      (∀ r, destOf i = some r → t.rspErr = 0 → u.readB r = t.readB r))

/-- KWIN, RD, STAT and RDKS are idempotent: issued again after themselves they give the same response
and leave the state as it was (20_memory.md §4). -/
def Obligations.ReadsAreIdempotent : Prop :=
  ∀ (i : Instr) (s t : State),
    (∃ d v, i = .kwin d v) ∨ (∃ r, i = .rd r) ∨ i = .stat ∨ i = .rdks →
    exec i s = .next t → exec i t = .next t

/-- R196: what the cells at KM_LEN and above hold never reaches a register, STATUS or a response: a
good state and one that differs from it in those cells alone still do so after any command. -/
def Obligations.HiddenCellsNeverReachAnything : Prop :=
  ∀ (i : Instr) (s u t : State), Inv s → AgreeBelowLength s u → exec i s = .next t →
    ∃ v, exec i u = .next v ∧ AgreeBelowLength t v

/-! ## Good states and runs -/

/-- The reset state is good (10_state.md §8). -/
def Obligations.ResetIsGood : Prop := Inv State.reset

/-- R27 and the model's other invariants: every edge keeps a good state good, whatever the host does.
The canonical form of the cell list and the port clauses are the model's (logs 5 and 13). -/
def Obligations.EveryStepKeepsTheStateGood : Prop :=
  ∀ s t : State, Inv s → step s = .next t → Inv t

/-- No good state stops: every edge from it has a next state, so the model's fault is never raised
in a run (70_reset_and_hazards.md §4, "no command can hang"; log 12). -/
def Obligations.GoodStatesNeverStop : Prop :=
  (∀ s : State, Inv s → ∃ t, step s = .next t) ∧
  (∀ (s : State) (n : Nat), Inv s → ∃ t, Host.Core.run Sys2Proof.core n s = .next t ∧ Inv t)

/-- R338: a command in flight completes after finitely many edges, whatever the host does short of
reset, with `rsp_valid` pulsed and with exactly the effect of executing its word on the state it was
waiting in. -/
def Obligations.EveryAcceptedCommandCompletes : Prop :=
  ∀ (s : State) (w : Word) (k : Nat), Inv s → HostMove.reset ∉ s.host →
    s.inFlight = some ⟨w, k⟩ →
    ∃ n t u, Host.Core.run Sys2Proof.core n s = .next t ∧ executeWord w s = .next u ∧
      SameArchitecture u t ∧ t.rspValid = true ∧ t.inFlight = none

/-- An offered word is accepted and answered: from a good state with nothing in flight, whether or not
the block is ready yet, some number of edges later the response of executing the word is out and the
block is ready again (60_exceptions.md §6, 70_reset_and_hazards.md §4; the edge at which `cmd_ready`
rises is the model's reading, log 13). -/
def Obligations.OfferedCommandsAreAnswered : Prop :=
  ∀ (s : State) (w : Word) (moves : List HostMove), Inv s → s.inFlight = none →
    s.host = .command w :: moves → HostMove.reset ∉ moves →
    ∃ n t u, Host.Core.run Sys2Proof.core n s = .next t ∧ executeWord w s = .next u ∧
      SameArchitecture u t ∧ t.rspValid = true ∧ t.cmdReady = true ∧ t.inFlight = none

/-- The command port at one edge: a word is accepted where `cmd_valid` and `cmd_ready` are both 1, and
`cmd_ready` falls; a word offered while the block is not ready is held and not accepted; and the first
edge with `rst` = 0 after reset makes the block ready (30_encoding.md §1, 60_exceptions.md §6,
70_reset_and_hazards.md §1). That this last edge accepts nothing is the model's reading, log 13, and so
is that `cmd_ready` is 1 after it also where the host asserts `rst` next, log 14. -/
def Obligations.AcceptanceNeedsValidAndReady : Prop :=
  (∀ (s : State) (w : Word) (moves : List HostMove), Inv s → s.host = .command w :: moves →
    s.cmdReady = true → ∃ t k, step s = .next t ∧ t.inFlight = some ⟨w, k⟩ ∧ t.cmdReady = false ∧
      t.rspValid = false ∧ t.host = moves ∧ SameArchitecture s t) ∧
  (∀ (s t : State) (w : Word) (moves : List HostMove), s.host = .command w :: moves →
    s.cmdReady = false → step s = .next t → t.host = .command w :: moves) ∧
  (∀ s : State, s.rst = false → s.inFlight = none → s.cmdReady = false →
    ∃ u, step s = .next u ∧ u.cmdReady = true ∧ u.inFlight = none ∧ u.rspValid = false ∧
      SameArchitecture s u)

/-- The response registers keep their values from one completion to the next (or reset), and
`rsp_valid` is 1 after exactly the edges at which a command completes (30_encoding.md §1). The model's
choice, log 14: it is 1 there also where the host asserts `rst` next. -/
def Obligations.ResponseIsHeld : Prop :=
  ∀ s t : State, step s = .next t → s.rst = false →
    (t.rspValid = true ↔ ∃ w, s.inFlight = some ⟨w, 0⟩) ∧
    ((∀ w, s.inFlight ≠ some ⟨w, 0⟩) → SameArchitecture s t)

/-- R330, R332: at an edge with `rst` = 1 the block takes the reset values of R32, whatever is in flight,
none of whose writes take effect and which gets no response. -/
def Obligations.ResetDiscardsTheCommandInFlight : Prop :=
  ∀ s : State, s.rst = true → ∃ t, step s = .next t ∧
    (∀ r, t.readB r = 0) ∧ t.kmLen = 0 ∧ t.nk = 0 ∧ t.status.word = 0 ∧ t.rspErr = 0 ∧
    t.rspData = 0 ∧ t.inFlight = none ∧ t.cmdReady = false ∧ t.rspValid = false

/-- What the cells at KM_LEN and above hold decides nothing at the ports either, not even when a response
comes: from a good state and one that differs from it in those cells alone, every edge leads to two such
states again, with the same handshake, whatever the host does (43_key_schedule.md §3,
93_implementation_defined.md §1). That a latency is drawn as it is (log 4), and the ports' edges (logs 13
and 14), are the model's. -/
def Obligations.HiddenCellsNeverReachThePorts : Prop :=
  ∀ s u t : State, Inv s → AgreeBelowLength s u → SamePorts s u → step s = .next t →
    ∃ v, step u = .next v ∧ AgreeBelowLength t v ∧ SamePorts t v
end

