-- ==== Sys2Proof/Laws/Decode.lean ====
section
/-! SUPPORT. The fields of the packed formats. -/

namespace Sys2Proof

@[simp] theorem Reg.ofBits_bits (r : Reg) : Reg.ofBits r.bits = r := by cases r <;> rfl

@[simp] theorem Reg.bits_ofBits (k : BitVec 2) : (Reg.ofBits k).bits = k := by
  revert k; decide

/-- The bits of format I16's pattern. -/
theorem getLsbD_packI16 (op : BitVec 8) (d : Reg) (v : BitVec 16) (i : Nat) :
    (packI16 op d v).getLsbD i =
      if i < 16 then v.getLsbD i else if i < 22 then false
      else if i < 24 then d.bits.getLsbD (i - 22) else op.getLsbD (i - 24) := by
  change @BitVec.getLsbD (8 + 2 + 6 + 16) (op ++ d.bits ++ 0#6 ++ v) i = _
  simp only [BitVec.getLsbD_append, BitVec.getLsbD_zero]
  split_ifs <;> first | omega | rfl

/-- The bits of format I8D's pattern. -/
theorem getLsbD_packI8D (op : BitVec 8) (d : Reg) (v : BitVec 8) (i : Nat) :
    (packI8D op d v).getLsbD i =
      if i < 8 then v.getLsbD i else if i < 22 then false
      else if i < 24 then d.bits.getLsbD (i - 22) else op.getLsbD (i - 24) := by
  change @BitVec.getLsbD (8 + 2 + 14 + 8) (op ++ d.bits ++ 0#14 ++ v) i = _
  simp only [BitVec.getLsbD_append, BitVec.getLsbD_zero]
  split_ifs <;> first | omega | rfl

/-- The bits of format I8's pattern. -/
theorem getLsbD_packI8 (op v : BitVec 8) (i : Nat) :
    (packI8 op v).getLsbD i =
      if i < 8 then v.getLsbD i else if i < 24 then false else op.getLsbD (i - 24) := by
  change @BitVec.getLsbD (8 + 16 + 8) (op ++ 0#16 ++ v) i = _
  simp only [BitVec.getLsbD_append, BitVec.getLsbD_zero]
  split_ifs <;> first | omega | rfl

/-- A field of a word, from its bits. -/
theorem extractLsb'_eq_of_bits {n : Nat} {w : Word} {lo : Nat} {x : BitVec n}
    (h : ∀ i < n, w.getLsbD (lo + i) = x.getLsbD i) : w.extractLsb' lo n = x := by
  apply BitVec.eq_of_getLsbD_eq
  intro i hi
  rw [BitVec.getLsbD_extractLsb', h i hi]
  simp [hi]

/-- The fields of format I16's pattern. -/
theorem packI16_fields (op : BitVec 8) (d : Reg) (v : BitVec 16) :
    opField (packI16 op d v) = op ∧ rdField (packI16 op d v) = d ∧
      imm16Field (packI16 op d v) = v ∧ clearBits (packI16 op d v) 16 6 = true := by
  refine ⟨extractLsb'_eq_of_bits ?_, ?_, extractLsb'_eq_of_bits ?_, ?_⟩
  · intro i hi; rw [getLsbD_packI16]; split_ifs <;> first | omega | (congr 1; omega)
  · unfold rdField
    rw [extractLsb'_eq_of_bits (x := d.bits), Reg.ofBits_bits]
    intro i hi; rw [getLsbD_packI16]; split_ifs <;> first | omega | (congr 1; omega)
  · intro i hi; rw [getLsbD_packI16]; split_ifs <;> first | omega | (congr 1; omega)
  · unfold clearBits
    rw [extractLsb'_eq_of_bits (x := 0#6)]
    · rfl
    · intro i hi; rw [getLsbD_packI16]; split_ifs <;> first | omega | simp

/-- The fields of format I8D's pattern. -/
theorem packI8D_fields (op : BitVec 8) (d : Reg) (v : BitVec 8) :
    opField (packI8D op d v) = op ∧ rdField (packI8D op d v) = d ∧
      imm8Field (packI8D op d v) = v ∧ clearBits (packI8D op d v) 8 14 = true := by
  refine ⟨extractLsb'_eq_of_bits ?_, ?_, extractLsb'_eq_of_bits ?_, ?_⟩
  · intro i hi; rw [getLsbD_packI8D]; split_ifs <;> first | omega | (congr 1; omega)
  · unfold rdField
    rw [extractLsb'_eq_of_bits (x := d.bits), Reg.ofBits_bits]
    intro i hi; rw [getLsbD_packI8D]; split_ifs <;> first | omega | (congr 1; omega)
  · intro i hi; rw [getLsbD_packI8D]; split_ifs <;> first | omega | (congr 1; omega)
  · unfold clearBits
    rw [extractLsb'_eq_of_bits (x := 0#14)]
    · rfl
    · intro i hi; rw [getLsbD_packI8D]; split_ifs <;> first | omega | simp

/-- The fields of format I8's pattern. -/
theorem packI8_fields (op v : BitVec 8) :
    opField (packI8 op v) = op ∧ imm8Field (packI8 op v) = v ∧
      clearBits (packI8 op v) 8 16 = true := by
  refine ⟨extractLsb'_eq_of_bits ?_, extractLsb'_eq_of_bits ?_, ?_⟩
  · intro i hi; rw [getLsbD_packI8]; split_ifs <;> first | omega | (congr 1; omega)
  · intro i hi; rw [getLsbD_packI8]; split_ifs <;> first | omega | (congr 1; omega)
  · unfold clearBits
    rw [extractLsb'_eq_of_bits (x := 0#16)]
    · rfl
    · intro i hi; rw [getLsbD_packI8]; split_ifs <;> first | omega | simp

end Sys2Proof
end

