-- ==== Sys2Proof/Laws/Memory.lean ====
section
/-! SUPPORT. The laws of the KM cells: a read after a write, and the canonical form. -/

namespace Sys2Proof.Machine.Memory

/-- A read after a write of the same cell. -/
@[simp] theorem read_write_self (m : Memory) (a : Nat) (n : Nibble) :
    Memory.read (Memory.write m a n) a = some n := by
  induction m with
  | nil => simp [write, read]
  | cons x m ih =>
    obtain ⟨c, v⟩ := x
    simp only [write]
    split_ifs with h1 h2
    · simp [read]
    · simp [read]
    · simp [read, h2, ih]

/-- A write leaves every other cell alone. -/
theorem read_write_of_ne (m : Memory) {a c : Nat} (n : Nibble) (h : c ≠ a) :
    Memory.read (Memory.write m a n) c = Memory.read m c := by
  induction m with
  | nil => simp [write, read, h]
  | cons x m ih =>
    obtain ⟨d, v⟩ := x
    simp only [write]
    split_ifs with h1 h2
    · simp [read, h]
    · subst h2; simp [read, h]
    · simp only [read, ih]

/-- The entries after a write: the new one and old ones. -/
theorem mem_write {m : Memory} {a : Nat} {n : Nibble} {x : Nat × Nibble}
    (h : x ∈ Memory.write m a n) : x = (a, n) ∨ x ∈ m := by
  induction m with
  | nil => simpa [write] using h
  | cons y m ih =>
    obtain ⟨d, v⟩ := y
    simp only [write] at h
    split_ifs at h with h1 h2
    · simpa using h
    · rcases List.mem_cons.1 h with h | h
      · exact .inl h
      · exact .inr (List.mem_cons_of_mem _ h)
    · rcases List.mem_cons.1 h with h | h
      · exact .inr (by simp [h])
      · exact (ih h).imp_right (List.mem_cons_of_mem _)

/-- A write keeps the canonical form. -/
theorem wf_write {m : Memory} (h : wf m) (a : Nat) (n : Nibble) : wf (Memory.write m a n) := by
  induction m with
  | nil => simp [write, wf]
  | cons x m ih =>
    obtain ⟨c, v⟩ := x
    obtain ⟨hc, hm⟩ := List.pairwise_cons.1 h
    simp only [write]
    split_ifs with h1 h2
    · refine List.pairwise_cons.2 ⟨?_, h⟩
      intro y hy
      rcases List.mem_cons.1 hy with rfl | hy
      · exact h1
      · exact lt_trans h1 (hc y hy)
    · subst h2
      exact List.pairwise_cons.2 ⟨hc, hm⟩
    · refine List.pairwise_cons.2 ⟨?_, ih hm⟩
      intro y hy
      rcases mem_write hy with rfl | hy
      · exact lt_of_le_of_ne (not_lt.1 h1) (Ne.symm h2)
      · exact hc y hy

/-- Reset's memory is canonical. -/
theorem wf_reset : wf State.reset.km := List.Pairwise.nil

/-- A cell after a write to the state's memory. -/
theorem cell_write (s : State) (l : BitVec 8) (a c : Nat) (n : Nibble) :
    State.cell { s with km := s.km.write a n, kmLen := l } c = if c = a then n else s.cell c := by
  unfold State.cell
  by_cases h : c = a
  · subst h; simp
  · simp [h, read_write_of_ne]

end Sys2Proof.Machine.Memory
end

