-- ==== Sys2Proof/Laws/State.lean ====
section
/-! SUPPORT. One lemma per field per update of State. -/

namespace Sys2Proof.Machine.State

variable (s : State) (r : Reg) (v : Block) (w : Word) (k : Nat)

@[simp] theorem writeB_b : (s.writeB r v).b = s.b.set r v := rfl
@[simp] theorem writeB_km : (s.writeB r v).km = s.km := rfl
@[simp] theorem writeB_kmLen : (s.writeB r v).kmLen = s.kmLen := rfl
@[simp] theorem writeB_nk : (s.writeB r v).nk = s.nk := rfl
@[simp] theorem writeB_status : (s.writeB r v).status = s.status := rfl
@[simp] theorem writeB_rspErr : (s.writeB r v).rspErr = s.rspErr := rfl
@[simp] theorem writeB_rspData : (s.writeB r v).rspData = s.rspData := rfl
@[simp] theorem writeB_rspValid : (s.writeB r v).rspValid = s.rspValid := rfl
@[simp] theorem writeB_cmdReady : (s.writeB r v).cmdReady = s.cmdReady := rfl
@[simp] theorem writeB_inFlight : (s.writeB r v).inFlight = s.inFlight := rfl
@[simp] theorem writeB_host : (s.writeB r v).host = s.host := rfl
@[simp] theorem writeB_kmEpoch : (s.writeB r v).kmEpoch = s.kmEpoch := rfl
@[simp] theorem writeB_draws : (s.writeB r v).draws = s.draws := rfl

@[simp] theorem resetEdge_b : s.resetEdge.b = ⟨0, 0, 0, 0⟩ := rfl
@[simp] theorem resetEdge_km : s.resetEdge.km = [] := rfl
@[simp] theorem resetEdge_kmLen : s.resetEdge.kmLen = 0 := rfl
@[simp] theorem resetEdge_nk : s.resetEdge.nk = 0 := rfl
@[simp] theorem resetEdge_status : s.resetEdge.status = ⟨false, 0⟩ := rfl
@[simp] theorem resetEdge_rspErr : s.resetEdge.rspErr = 0 := rfl
@[simp] theorem resetEdge_rspData : s.resetEdge.rspData = 0 := rfl
@[simp] theorem resetEdge_rspValid : s.resetEdge.rspValid = false := rfl
@[simp] theorem resetEdge_cmdReady : s.resetEdge.cmdReady = false := rfl
@[simp] theorem resetEdge_inFlight : s.resetEdge.inFlight = none := rfl
@[simp] theorem resetEdge_host : s.resetEdge.host = s.hostHolds := rfl
@[simp] theorem resetEdge_kmEpoch : s.resetEdge.kmEpoch = s.draws + 1 := rfl
@[simp] theorem resetEdge_draws : s.resetEdge.draws = s.draws + 1 := rfl

@[simp] theorem waitEdge_b : (s.waitEdge w k).b = s.b := rfl
@[simp] theorem waitEdge_km : (s.waitEdge w k).km = s.km := rfl
@[simp] theorem waitEdge_kmLen : (s.waitEdge w k).kmLen = s.kmLen := rfl
@[simp] theorem waitEdge_nk : (s.waitEdge w k).nk = s.nk := rfl
@[simp] theorem waitEdge_status : (s.waitEdge w k).status = s.status := rfl
@[simp] theorem waitEdge_rspErr : (s.waitEdge w k).rspErr = s.rspErr := rfl
@[simp] theorem waitEdge_rspData : (s.waitEdge w k).rspData = s.rspData := rfl
@[simp] theorem waitEdge_rspValid : (s.waitEdge w k).rspValid = false := rfl
@[simp] theorem waitEdge_cmdReady : (s.waitEdge w k).cmdReady = s.cmdReady := rfl
@[simp] theorem waitEdge_inFlight : (s.waitEdge w k).inFlight = some ⟨w, k⟩ := rfl
@[simp] theorem waitEdge_host : (s.waitEdge w k).host = s.hostHolds := rfl
@[simp] theorem waitEdge_kmEpoch : (s.waitEdge w k).kmEpoch = s.kmEpoch := rfl
@[simp] theorem waitEdge_draws : (s.waitEdge w k).draws = s.draws := rfl

@[simp] theorem withInFlight_b : (s.withInFlight w).b = s.b := rfl
@[simp] theorem withInFlight_km : (s.withInFlight w).km = s.km := rfl
@[simp] theorem withInFlight_kmLen : (s.withInFlight w).kmLen = s.kmLen := rfl
@[simp] theorem withInFlight_nk : (s.withInFlight w).nk = s.nk := rfl
@[simp] theorem withInFlight_status : (s.withInFlight w).status = s.status := rfl
@[simp] theorem withInFlight_rspErr : (s.withInFlight w).rspErr = s.rspErr := rfl
@[simp] theorem withInFlight_rspData : (s.withInFlight w).rspData = s.rspData := rfl
@[simp] theorem withInFlight_rspValid : (s.withInFlight w).rspValid = false := rfl
@[simp] theorem withInFlight_cmdReady : (s.withInFlight w).cmdReady = false := rfl
@[simp] theorem withInFlight_inFlight : (s.withInFlight w).inFlight = some ⟨w, 0⟩ := rfl
@[simp] theorem withInFlight_host : (s.withInFlight w).host = .idle :: s.host := rfl
@[simp] theorem withInFlight_kmEpoch : (s.withInFlight w).kmEpoch = s.kmEpoch := rfl
@[simp] theorem withInFlight_draws : (s.withInFlight w).draws = s.draws := rfl

/-! The port edge has two forms; what both leave alone. -/

/-- The two things a port edge does. -/
theorem portEdge_cases :
    (∃ w, s.cmdReady = true ∧ s.offered = some w ∧
      s.portEdge = { s with inFlight := some ⟨w, s.drawLatency w⟩, cmdReady := false,
                            rspValid := false, host := s.host.tail, draws := s.draws + 1 }) ∨
    ((s.cmdReady = false ∨ s.offered = none) ∧
      s.portEdge = { s with cmdReady := true, rspValid := false, host := s.hostHolds }) := by
  unfold portEdge
  rcases hr : s.cmdReady with _ | _ <;> rcases ho : s.offered with _ | w <;> simp

@[simp] theorem portEdge_b : s.portEdge.b = s.b := by
  obtain ⟨w, -, -, h⟩ | ⟨-, h⟩ := s.portEdge_cases <;> rw [h]
@[simp] theorem portEdge_km : s.portEdge.km = s.km := by
  obtain ⟨w, -, -, h⟩ | ⟨-, h⟩ := s.portEdge_cases <;> rw [h]
@[simp] theorem portEdge_kmLen : s.portEdge.kmLen = s.kmLen := by
  obtain ⟨w, -, -, h⟩ | ⟨-, h⟩ := s.portEdge_cases <;> rw [h]
@[simp] theorem portEdge_nk : s.portEdge.nk = s.nk := by
  obtain ⟨w, -, -, h⟩ | ⟨-, h⟩ := s.portEdge_cases <;> rw [h]
@[simp] theorem portEdge_status : s.portEdge.status = s.status := by
  obtain ⟨w, -, -, h⟩ | ⟨-, h⟩ := s.portEdge_cases <;> rw [h]
@[simp] theorem portEdge_rspErr : s.portEdge.rspErr = s.rspErr := by
  obtain ⟨w, -, -, h⟩ | ⟨-, h⟩ := s.portEdge_cases <;> rw [h]
@[simp] theorem portEdge_rspData : s.portEdge.rspData = s.rspData := by
  obtain ⟨w, -, -, h⟩ | ⟨-, h⟩ := s.portEdge_cases <;> rw [h]
@[simp] theorem portEdge_rspValid : s.portEdge.rspValid = false := by
  obtain ⟨w, -, -, h⟩ | ⟨-, h⟩ := s.portEdge_cases <;> rw [h]
@[simp] theorem portEdge_kmEpoch : s.portEdge.kmEpoch = s.kmEpoch := by
  obtain ⟨w, -, -, h⟩ | ⟨-, h⟩ := s.portEdge_cases <;> rw [h]

end Sys2Proof.Machine.State
end

