-- ==== Sys2Proof/Laws/Ops.lean ====
section
/-! SUPPORT. One lemma for everything each shared operation can do, and the laws of the operands. -/

namespace Sys2Proof.Machine

/-! ## Block registers -/

@[simp] theorem BlockRegs.get_set_self (b : BlockRegs) (r : Reg) (v : Block) :
    (b.set r v).get r = v := by cases r <;> rfl

theorem BlockRegs.get_set_of_ne (b : BlockRegs) {r q : Reg} (v : Block) (h : q ≠ r) :
    (b.set r v).get q = b.get q := by cases r <;> cases q <;> first | rfl | exact absurd rfl h

@[simp] theorem State.readB_writeB_self (s : State) (r : Reg) (v : Block) :
    (s.writeB r v).readB r = v := BlockRegs.get_set_self _ _ _

theorem State.readB_writeB_of_ne (s : State) {r q : Reg} (v : Block) (h : q ≠ r) :
    (s.writeB r v).readB q = s.readB q := BlockRegs.get_set_of_ne _ _ h

@[simp] theorem State.cell_writeB (s : State) (r : Reg) (v : Block) (a : Nat) :
    (s.writeB r v).cell a = s.cell a := rfl

/-! ## Completion -/

theorem State.respond_next {s t : State} {v : BitVec 16} :
    s.respond v = .next t ↔ t = { s with rspErr := 0, rspData := v } := by
  simp [State.respond, eq_comm]

theorem State.raise_next {s t : State} {e : ErrorCode} :
    s.raise e = .next t ↔
      t = { s with status := s.status.record e, rspErr := e.code, rspData := 0 } := by
  simp [State.raise, eq_comm]

theorem State.writeBack_next {s t : State} {rd : Reg} {v : Block} :
    s.writeBack rd v = .next t ↔ t = { s with b := s.b.set rd v, rspErr := 0, rspData := v } := by
  simp [State.writeBack, State.respond, State.writeB, eq_comm]

/-- A checked rule goes on with the value or raises. -/
theorem State.check_next {α : Type} {s t : State} {r : Except ErrorCode α} {k : α → Result}
    (h : s.check r k = .next t) :
    (∃ a, r = .ok a ∧ k a = .next t) ∨ ∃ e, r = .error e ∧ s.raise e = .next t := by
  cases r with
  | ok a => exact .inl ⟨a, rfl, h⟩
  | error e => exact .inr ⟨e, rfl, h⟩

/-! ## Error codes -/

theorem ErrorCode.code_ne_zero (e : ErrorCode) : e.code ≠ 0 := by cases e <;> decide

theorem ErrorCode.code_injective {e f : ErrorCode} (h : e.code = f.code) : e = f := by
  revert h; cases e <;> cases f <;> decide

/-- A second error changes nothing. -/
@[simp] theorem Status.record_record (st : Status) (e f : ErrorCode) :
    (st.record e).record f = st.record e := by
  unfold Status.record
  split_ifs <;> simp_all

/-! ## Operands -/

theorem candidateNibble_ok {v : BitVec 8} (h : v.toNat ≤ 15) :
    candidateNibble v = .ok (v.setWidth 4) := by simp [candidateNibble]; omega

theorem candidateNibble_error {v : BitVec 8} (h : 16 ≤ v.toNat) :
    candidateNibble v = .error .outOfRange := by simp [candidateNibble]; omega

/-- A candidate nibble is the immediate itself, or the error is OutOfRange. -/
theorem candidateNibble_cases (v : BitVec 8) :
    (v.toNat ≤ 15 ∧ candidateNibble v = .ok (v.setWidth 4)) ∨
      (16 ≤ v.toNat ∧ candidateNibble v = .error .outOfRange) := by
  by_cases h : v.toNat ≤ 15
  · exact .inl ⟨h, candidateNibble_ok h⟩
  · exact .inr ⟨by omega, candidateNibble_error (by omega)⟩

/-- The parameter's legal range (00_scope.md R6). -/
theorem kmDepth_bounds (c : Config) : 5 ≤ c.kmDepth ∧ c.kmDepth ≤ 255 := by
  have := c.kmDepthAbove5.isLt
  unfold Config.kmDepth
  omega

/-! ## Packed States -/

/-- The bits of a packed State. -/
theorem getLsbD_pack (a b c d : Nibble) (i : Nat) :
    (pack a b c d).getLsbD i =
      if i < 4 then d.getLsbD i else if i < 8 then c.getLsbD (i - 4)
      else if i < 12 then b.getLsbD (i - 8) else a.getLsbD (i - 12) := by
  change @BitVec.getLsbD (4 + 4 + 4 + 4) (a ++ b ++ c ++ d) i = _
  simp only [BitVec.getLsbD_append]
  split_ifs <;> first | omega | rfl

/-- The bits of nibble `j`. -/
theorem getLsbD_nib (v : Block) (j i : Nat) :
    (nib v j).getLsbD i = (decide (i < 4) && v.getLsbD (12 - 4 * j + i)) := by
  simp only [nib, BitVec.getLsbD_extractLsb']

@[simp] theorem nib_pack_0 (a b c d : Nibble) : nib (pack a b c d) 0 = a := by
  apply BitVec.eq_of_getLsbD_eq
  intro i h
  rw [getLsbD_nib, getLsbD_pack]
  interval_cases i <;> simp

@[simp] theorem nib_pack_1 (a b c d : Nibble) : nib (pack a b c d) 1 = b := by
  apply BitVec.eq_of_getLsbD_eq
  intro i h
  rw [getLsbD_nib, getLsbD_pack]
  interval_cases i <;> simp

@[simp] theorem nib_pack_2 (a b c d : Nibble) : nib (pack a b c d) 2 = c := by
  apply BitVec.eq_of_getLsbD_eq
  intro i h
  rw [getLsbD_nib, getLsbD_pack]
  interval_cases i <;> simp

@[simp] theorem nib_pack_3 (a b c d : Nibble) : nib (pack a b c d) 3 = d := by
  apply BitVec.eq_of_getLsbD_eq
  intro i h
  rw [getLsbD_nib, getLsbD_pack]
  interval_cases i <;> simp

/-- Unpacking and packing again. -/
@[simp] theorem pack_nib (v : Block) : pack (nib v 0) (nib v 1) (nib v 2) (nib v 3) = v := by
  apply BitVec.eq_of_getLsbD_eq
  intro i h
  rw [getLsbD_pack]
  simp only [getLsbD_nib]
  interval_cases i <;> simp

end Sys2Proof.Machine
end

