-- ==== Sys2Proof/Laws/Exec.lean ====
section
/-! SUPPORT. Everything a command can do, said once: later proofs cite `exec_cases` and never unfold a
meaning. -/

namespace Sys2Proof.Machine

/-- The state after a command that raised. -/
def raised (s : State) (e : ErrorCode) : State :=
  { s with status := s.status.record e, rspErr := e.code, rspData := 0 }

/-- The state after a command that wrote a block register. -/
def wrote (s : State) (rd : Reg) (v : Block) : State :=
  { s with b := s.b.set rd v, rspErr := 0, rspData := v }

/-- The state after a command that only responded. -/
def answered (s : State) (v : BitVec 16) : State := { s with rspErr := 0, rspData := v }

/-- The state after KMPUSH appended a nibble. -/
def pushed (s : State) (n : Nibble) : State :=
  { s with km := s.km.write s.kmLen.toNat n, kmLen := s.kmLen + 1, rspErr := 0,
           rspData := (s.kmLen + 1).setWidth 16 }

/-- The state after KSCHED set NK. -/
def scheduled (s : State) (n : BitVec 8) : State :=
  { s with nk := n, rspErr := 0, rspData := n.setWidth 16 }

/-! ## One lemma for each rule with a check -/

/-- What KMPUSH's rule does. -/
theorem pushNibble_next {depth : Nat} {v : BitVec 8} {s t : State}
    (h : pushNibble depth v s = .next t) :
    (16 ≤ v.toNat ∧ t = raised s .outOfRange) ∨
    (v.toNat ≤ 15 ∧ s.kmLen.toNat = depth ∧ t = raised s .keyMaterialFull) ∨
    (v.toNat ≤ 15 ∧ s.kmLen.toNat < depth ∧ t = pushed s (v.setWidth 4)) := by
  unfold pushNibble at h
  obtain ⟨hv, hc⟩ | ⟨hv, hc⟩ := candidateNibble_cases v <;> rw [hc, State.check] at h
  · split_ifs at h with h1 h2
    · exact .inr (.inl ⟨hv, h1, State.raise_next.1 h⟩)
    · exact .inr (.inr ⟨hv, by simpa [cellExists] using h2, State.respond_next.1 h⟩)
  · exact .inl ⟨hv, State.raise_next.1 h⟩

/-- What `gen_keys`'s policy makes of NK (43_key_schedule.md R194). -/
theorem scheduleLength_cases (strict : Bool) (r l : BitVec 8) :
    (r ≠ 0 ∧ r.toNat + 3 ≤ l.toNat ∧ scheduleLength strict r l = .ok r) ∨
    ((r = 0 ∨ (l.toNat < r.toNat + 3 ∧ strict = false)) ∧ scheduleLength strict r l = .ok 0) ∨
    (r ≠ 0 ∧ l.toNat < r.toNat + 3 ∧ strict = true ∧
      scheduleLength strict r l = .error .insufficientKeyMaterial) := by
  unfold scheduleLength
  split_ifs with h1 h2 h3
  · exact .inr (.inl ⟨.inl h1, rfl⟩)
  · exact .inl ⟨h1, h2, rfl⟩
  · exact .inr (.inr ⟨h1, by omega, h3, rfl⟩)
  · exact .inr (.inl ⟨.inr ⟨by omega, by simpa using h3⟩, rfl⟩)

/-- What KSCHED's rule does. -/
theorem schedule_next {strict : Bool} {r : BitVec 8} {s t : State}
    (h : schedule strict r s = .next t) :
    (r.toNat + 3 ≤ s.kmLen.toNat ∧ t = scheduled s r) ∨
    ((r = 0 ∨ (s.kmLen.toNat < r.toNat + 3 ∧ strict = false)) ∧ t = scheduled s 0) ∨
    (r ≠ 0 ∧ s.kmLen.toNat < r.toNat + 3 ∧ strict = true ∧
      t = raised s .insufficientKeyMaterial) := by
  unfold schedule at h
  obtain ⟨-, h2, hc⟩ | ⟨h1, hc⟩ | ⟨h1, h2, h3, hc⟩ := scheduleLength_cases strict r s.kmLen <;>
    rw [hc, State.check] at h
  · exact .inl ⟨h2, State.respond_next.1 h⟩
  · exact .inr (.inl ⟨h1, State.respond_next.1 h⟩)
  · exact .inr (.inr ⟨h1, h2, h3, State.raise_next.1 h⟩)

/-- What KWIN does. -/
theorem execKwin_next {rd : Reg} {i : BitVec 8} {s t : State} (h : execKwin rd i s = .next t) :
    (s.nk.toNat ≤ i.toNat ∧ t = raised s .keyIndex) ∨
    (i.toNat < s.nk.toNat ∧ t = wrote s rd (s.window i.toNat)) := by
  unfold execKwin at h
  split_ifs at h with h1 h2
  · exact .inl ⟨h1, State.raise_next.1 h⟩
  · exact .inr ⟨by omega, State.writeBack_next.1 h⟩

/-- What a driver command does, for a function that takes two keys or more. -/
theorem runDriver_next {f : Block → List Block → Except ErrorCode Block} {rd rs : Reg}
    {s t : State} (hf : ∀ v ks, 2 ≤ ks.length → ∃ r, f v ks = .ok r)
    (h : runDriver f rd rs s = .next t) :
    (s.nk.toNat < 2 ∧ t = raised s .invalidKeyCount) ∨
    (2 ≤ s.nk.toNat ∧ ∃ r, f (s.readB rs) s.keys = .ok r ∧ t = wrote s rd r) := by
  unfold runDriver at h
  split_ifs at h with h1 h2
  · exact .inl ⟨h1, State.raise_next.1 h⟩
  · obtain ⟨r, hr⟩ := hf (s.readB rs) s.keys (by simp [State.keys]; omega)
    rw [hr, State.check] at h
    exact .inr ⟨by omega, r, hr, State.writeBack_next.1 h⟩

/-- The encryption structure answers on two keys or more. -/
theorem cipherStructure_ok (f g : Block → Block) (v : Block) {ks : List Block}
    (h : 2 ≤ ks.length) : ∃ r, cipherStructure f g v ks = .ok r := by
  unfold cipherStructure
  dsimp only
  rw [if_neg (by omega)]
  exact ⟨_, rfl⟩

theorem decrypt_ok (S : SBox) (v : Block) {ks : List Block} (h : 2 ≤ ks.length) :
    ∃ r, decrypt S v ks = .ok r := by
  unfold decrypt
  rcases hk : ks.reverse with _ | ⟨a, _ | ⟨b, l⟩⟩
  · have := congrArg List.length hk; simp at this; simp [this] at h
  · have := congrArg List.length hk; simp at this; omega
  · exact ⟨_, rfl⟩

@[simp] theorem length_transform (ks : List Block) : (transform ks).length = ks.length := by
  simp [transform]

/-! ## Every command -/

/-- What a command can do. -/
inductive Effect (i : Instr) (s : State) : State → Prop
  | raise (e : ErrorCode) : Effect i s (raised s e)
  | write (rd : Reg) (v : Block) (h : destOf i = some rd) : Effect i s (wrote s rd v)
  | answer (v : BitVec 16) (h : destOf i = none) : Effect i s (answered s v)
  | clearStatus (h : i = .clrst) : Effect i s (answered { s with status := Status.clear } 0)
  | clearKeys (h : i = .kmclr) : Effect i s (answered { s with kmLen := 0, nk := 0 } 0)
  | push (v : BitVec 8) (h : i = .kmpush v) (hv : v.toNat ≤ 15)
      (hl : s.kmLen.toNat < Config.chip.kmDepth) : Effect i s (pushed s (v.setWidth 4))
  | schedule (n : BitVec 8) (h : ∃ r, i = .ksched r)
      (hn : n = 0 ∨ n.toNat + 3 ≤ s.kmLen.toNat) : Effect i s (scheduled s n)

/-- Everything a command can do. -/
theorem exec_cases {i : Instr} {s t : State} (h : exec i s = .next t) : Effect i s t := by
  cases i
  case ldi d v => rw [State.writeBack_next.1 h]; exact .write d _ rfl
  case mov d r => rw [State.writeBack_next.1 h]; exact .write d _ rfl
  case rd r => rw [State.respond_next.1 h]; exact .answer _ rfl
  case sub d r => rw [State.writeBack_next.1 h]; exact .write d _ rfl
  case isub d r => rw [State.writeBack_next.1 h]; exact .write d _ rfl
  case sbx d v =>
    obtain ⟨n, -, hn⟩ | ⟨e, -, he⟩ := State.check_next h
    · rw [State.writeBack_next.1 hn]; exact .write d _ rfl
    · rw [State.raise_next.1 he]; exact .raise e
  case isbx d v =>
    obtain ⟨n, -, hn⟩ | ⟨e, -, he⟩ := State.check_next h
    · rw [State.writeBack_next.1 hn]; exact .write d _ rfl
    · rw [State.raise_next.1 he]; exact .raise e
  case perm d r => rw [State.writeBack_next.1 h]; exact .write d _ rfl
  case iperm d r => rw [State.writeBack_next.1 h]; exact .write d _ rfl
  case xor d r q => rw [State.writeBack_next.1 h]; exact .write d _ rfl
  case round d r q => rw [State.writeBack_next.1 h]; exact .write d _ rfl
  case iround d r q => rw [State.writeBack_next.1 h]; exact .write d _ rfl
  case kmclr => rw [State.respond_next.1 h]; exact .clearKeys rfl
  case kmpush v =>
    obtain ⟨-, rfl⟩ | ⟨-, -, rfl⟩ | ⟨hv, hl, rfl⟩ := pushNibble_next h
    · exact .raise _
    · exact .raise _
    · exact .push v rfl hv hl
  case ksched r =>
    obtain ⟨hn, rfl⟩ | ⟨-, rfl⟩ | ⟨-, -, -, rfl⟩ := schedule_next h
    · exact .schedule r ⟨r, rfl⟩ (.inr hn)
    · exact .schedule 0 ⟨r, rfl⟩ (.inl rfl)
    · exact .raise _
  case kwin d v =>
    obtain ⟨-, rfl⟩ | ⟨-, rfl⟩ := execKwin_next h
    · exact .raise _
    · exact .write d _ rfl
  case enc d r =>
    obtain ⟨-, rfl⟩ | ⟨-, v, -, rfl⟩ := runDriver_next (fun v ks hk => cipherStructure_ok _ _ v hk) h
    · exact .raise _
    · exact .write d _ rfl
  case dec d r =>
    obtain ⟨-, rfl⟩ | ⟨-, v, -, rfl⟩ := runDriver_next (fun v ks hk => decrypt_ok _ v hk) h
    · exact .raise _
    · exact .write d _ rfl
  case decs d r =>
    obtain ⟨-, rfl⟩ | ⟨-, v, -, rfl⟩ :=
      runDriver_next (f := decryptSimple _)
        (fun v ks hk => cipherStructure_ok _ _ v (by simpa using hk)) h
    · exact .raise _
    · exact .write d _ rfl
  case stat => rw [State.respond_next.1 h]; exact .answer _ rfl
  case clrst => rw [State.respond_next.1 h]; exact .clearStatus rfl
  case rdks => rw [State.respond_next.1 h]; exact .answer _ rfl

/-- A command word that is no command raises; any other is its command. -/
theorem executeWord_next {w : Word} {s t : State} (h : executeWord w s = .next t) :
    (∃ i, decode w = .ok i ∧ exec i s = .next t) ∨
      (∃ e, decode w = .error e ∧ t = raised s .illegalCommand) := by
  unfold executeWord at h
  split at h
  · exact .inl ⟨_, ‹_›, h⟩
  · exact .inr ⟨_, ‹_›, State.raise_next.1 h⟩

end Sys2Proof.Machine
end

