-- ==== Sys2Proof/Laws/PerInstr.lean ====
section
/-! SUPPORT. One lemma per constructor: the word of every command is legal by the table of
WellFormed.lean (30_encoding.md R72, R76). -/

namespace Sys2Proof.Laws.EncodeLegal

/-- The command's word is legal. -/
def Statement (i : Instr) : Prop := legalWord (encode i) = true

/-- A row of the map whose masked word matches makes the word legal. -/
theorem legal_of_row {w : Word} (r : OpRow) (hr : r ∈ opcodeMap)
    (h : w &&& r.format.mask = r.matchWord) : legalWord w = true :=
  List.any_eq_true.2 ⟨r, hr, by simp [h]⟩

/-- A word checked by evaluation. -/
theorem of_decide {i : Instr} (h : legalWord (encode i) = true) : Statement i := h

theorem ldi (rd : Reg) (imm16 : BitVec 16) : Statement (.ldi rd imm16) := by
  refine legal_of_row ⟨0x01, "LDI", .i16⟩ (by decide) (BitVec.eq_of_getLsbD_eq fun i hi => ?_)
  rw [BitVec.getLsbD_and, encode, getLsbD_packI16]
  interval_cases i <;> simp [Format.mask, OpRow.matchWord]

theorem mov (rd rs : Reg) : Statement (.mov rd rs) := by
  cases rd <;> cases rs <;> exact of_decide rfl

theorem rd (rs : Reg) : Statement (.rd rs) := by
  cases rs <;> exact of_decide rfl

theorem sub (rd rs : Reg) : Statement (.sub rd rs) := by
  cases rd <;> cases rs <;> exact of_decide rfl

theorem isub (rd rs : Reg) : Statement (.isub rd rs) := by
  cases rd <;> cases rs <;> exact of_decide rfl

theorem sbx (rd : Reg) (imm8 : BitVec 8) : Statement (.sbx rd imm8) := by
  refine legal_of_row ⟨0x12, "SBX", .i8d⟩ (by decide) (BitVec.eq_of_getLsbD_eq fun i hi => ?_)
  rw [BitVec.getLsbD_and, encode, getLsbD_packI8D]
  interval_cases i <;> simp [Format.mask, OpRow.matchWord]

theorem isbx (rd : Reg) (imm8 : BitVec 8) : Statement (.isbx rd imm8) := by
  refine legal_of_row ⟨0x13, "ISBX", .i8d⟩ (by decide) (BitVec.eq_of_getLsbD_eq fun i hi => ?_)
  rw [BitVec.getLsbD_and, encode, getLsbD_packI8D]
  interval_cases i <;> simp [Format.mask, OpRow.matchWord]

theorem perm (rd rs : Reg) : Statement (.perm rd rs) := by
  cases rd <;> cases rs <;> exact of_decide rfl

theorem iperm (rd rs : Reg) : Statement (.iperm rd rs) := by
  cases rd <;> cases rs <;> exact of_decide rfl

theorem xor (rd rs rt : Reg) : Statement (.xor rd rs rt) := by
  cases rd <;> cases rs <;> cases rt <;> exact of_decide rfl

theorem round (rd rs rt : Reg) : Statement (.round rd rs rt) := by
  cases rd <;> cases rs <;> cases rt <;> exact of_decide rfl

theorem iround (rd rs rt : Reg) : Statement (.iround rd rs rt) := by
  cases rd <;> cases rs <;> cases rt <;> exact of_decide rfl

theorem kmclr : Statement .kmclr := of_decide rfl

theorem kmpush (imm8 : BitVec 8) : Statement (.kmpush imm8) := by
  refine legal_of_row ⟨0x41, "KMPUSH", .i8⟩ (by decide) (BitVec.eq_of_getLsbD_eq fun i hi => ?_)
  rw [BitVec.getLsbD_and, encode, getLsbD_packI8]
  interval_cases i <;> simp [Format.mask, OpRow.matchWord]

theorem ksched (imm8 : BitVec 8) : Statement (.ksched imm8) := by
  refine legal_of_row ⟨0x42, "KSCHED", .i8⟩ (by decide) (BitVec.eq_of_getLsbD_eq fun i hi => ?_)
  rw [BitVec.getLsbD_and, encode, getLsbD_packI8]
  interval_cases i <;> simp [Format.mask, OpRow.matchWord]

theorem kwin (rd : Reg) (imm8 : BitVec 8) : Statement (.kwin rd imm8) := by
  refine legal_of_row ⟨0x43, "KWIN", .i8d⟩ (by decide) (BitVec.eq_of_getLsbD_eq fun i hi => ?_)
  rw [BitVec.getLsbD_and, encode, getLsbD_packI8D]
  interval_cases i <;> simp [Format.mask, OpRow.matchWord]

theorem enc (rd rs : Reg) : Statement (.enc rd rs) := by
  cases rd <;> cases rs <;> exact of_decide rfl

theorem dec (rd rs : Reg) : Statement (.dec rd rs) := by
  cases rd <;> cases rs <;> exact of_decide rfl

theorem decs (rd rs : Reg) : Statement (.decs rd rs) := by
  cases rd <;> cases rs <;> exact of_decide rfl

theorem stat : Statement .stat := of_decide rfl

theorem clrst : Statement .clrst := of_decide rfl

theorem rdks : Statement .rdks := of_decide rfl

end Sys2Proof.Laws.EncodeLegal
end

