-- ==== Sys2Proof/Laws/Permutation.lean ====
section
/-! SUPPORT. The source's permutation algorithm, bit by bit. -/

namespace Sys2Proof.Machine

/-- The output bit that source bit `b` sets. -/
def destMask (T : List Nat) (b : Nat) : Block :=
  (8#16 >>> (T.getD b 0 % 4)) <<< (12 - 4 * ((T.getD b 0 - T.getD b 0 % 4) / 4))

/-- The test of R132 reads state bit `b`. -/
theorem nib_test_iff (v : Block) {b : Nat} (h : b < 16) :
    nib v (b / 4) &&& (8#4 >>> (b % 4)) ≠ 0 ↔ stateBit v b = true := by
  rw [Ne, ← not_iff_not, not_not, Bool.not_eq_true]
  constructor
  · intro h0
    have h1 := congrArg (fun x => x.getLsbD (3 - b % 4)) h0
    simp only [BitVec.getLsbD_and, getLsbD_nib] at h1
    unfold stateBit
    interval_cases b <;> simpa using h1
  · intro h0
    apply BitVec.eq_of_getLsbD_eq
    intro i hi
    rw [BitVec.getLsbD_and, getLsbD_nib]
    unfold stateBit at h0
    interval_cases b <;> interval_cases i <;> simp_all

theorem moveBit_eq (T : List Nat) (v out : Block) {b : Nat} (h : b < 16) :
    moveBit T v out b = out ||| if stateBit v b then destMask T b else 0 := by
  unfold moveBit
  by_cases hb : stateBit v b = true
  · rw [if_pos ((nib_test_iff v h).2 hb), if_pos hb]; rfl
  · rw [if_neg (mt (nib_test_iff v h).1 hb), if_neg hb]; simp

theorem foldl_moveBit_getLsbD (T : List Nat) (v : Block) (k : Nat) :
    ∀ (l : List Nat) (out : Block), (∀ b ∈ l, b < 16) →
      (l.foldl (moveBit T v) out).getLsbD k =
        (out.getLsbD k || l.any fun b => stateBit v b && (destMask T b).getLsbD k) := by
  intro l
  induction l with
  | nil => simp
  | cons b l ih =>
    intro out h
    rw [List.foldl_cons, ih _ fun c hc => h c (List.mem_cons_of_mem _ hc),
      moveBit_eq T v out (h b List.mem_cons_self), List.any_cons, BitVec.getLsbD_or]
    cases stateBit v b <;> simp [Bool.or_assoc]

/-- An output bit of the algorithm is the OR of the source bits sent to it. -/
theorem permWith_getLsbD (T : List Nat) (v : Block) (k : Nat) :
    (permWith T v).getLsbD k =
      (List.range 16).any fun b => stateBit v b && (destMask T b).getLsbD k := by
  rw [permWith, foldl_moveBit_getLsbD T v k _ _ fun b hb => List.mem_range.1 hb]
  simp

/-- The masks of the table: source bit `b` reaches word bit `k` exactly where the table says. -/
theorem destMask_permTable :
    ∀ b < 16, ∀ k < 16, (destMask permTable b).getLsbD k = (k == 15 - permTable.getD b 0) := by
  decide

/-- The closed form: word bit `k` of the output is the word bit of the input that the table, its own
inverse, names. -/
theorem permute_getLsbD (v : Block) {k : Nat} (h : k < 16) :
    (permute v).getLsbD k = v.getLsbD (15 - permTable.getD (15 - k) 0) := by
  have h1 : ∀ b ∈ List.range 16,
      (stateBit v b && (destMask permTable b).getLsbD k) =
        (stateBit v b && (k == 15 - permTable.getD b 0)) := by
    intro b hb
    rw [destMask_permTable b (List.mem_range.1 hb) k h]
  rw [permute, permWith_getLsbD, Bool.eq_iff_iff, List.any_eq_true]
  constructor
  · rintro ⟨b, hb, hx⟩
    rw [h1 b hb] at hx
    have hb' := List.mem_range.1 hb
    simp only [Bool.and_eq_true, beq_iff_eq, stateBit] at hx
    obtain ⟨hv, hk⟩ := hx
    have : ∀ b < 16, 15 - permTable.getD (15 - (15 - permTable.getD b 0)) 0 = 15 - b := by decide
    rw [hk, this b hb', hv]
  · intro hv
    have hp : ∀ k < 16, permTable.getD (15 - k) 0 < 16 ∧
        k = 15 - permTable.getD (permTable.getD (15 - k) 0) 0 := by decide
    obtain ⟨hlt, hk⟩ := hp k h
    refine ⟨permTable.getD (15 - k) 0, List.mem_range.2 hlt, ?_⟩
    rw [h1 _ (List.mem_range.2 hlt)]
    rw [Bool.and_eq_true, beq_iff_eq]
    exact ⟨hv, hk⟩

end Sys2Proof.Machine
end

