-- ==== Sys2Proof/Laws/Step.lean ====
section
/-! SUPPORT. Everything one rising edge can do, said once. -/

namespace Sys2Proof.Machine

/-- The four kinds of edge. -/
theorem step_cases {s t : State} (h : step s = .next t) :
    (s.rst = true ∧ t = s.resetEdge) ∨
    (s.rst = false ∧ s.inFlight = none ∧ t = s.portEdge) ∨
    (s.rst = false ∧ ∃ w k, s.inFlight = some ⟨w, k + 1⟩ ∧ t = s.waitEdge w k) ∨
    (s.rst = false ∧ ∃ w u, s.inFlight = some ⟨w, 0⟩ ∧ executeWord w s = .next u ∧
      t = { u with inFlight := none, cmdReady := true, rspValid := true, host := s.hostHolds }) := by
  unfold step clockEdge at h
  split at h
  · injection h with h
    exact .inl ⟨‹_›, h.symm⟩
  · have hr : s.rst = false := by simpa using ‹¬s.rst = true›
    split at h
    · injection h with h
      exact .inr (.inl ⟨hr, ‹_›, h.symm⟩)
    · rename_i c hc
      obtain ⟨w, n⟩ := c
      cases n with
      | zero =>
        dsimp only at h
        rcases hx : executeWord w s with u | f | r <;> rw [hx] at h
        · injection h with h
          exact .inr (.inr (.inr ⟨hr, w, u, hc, hx, h.symm⟩))
        · exact absurd h (by simp [State.completeEdge])
        · exact absurd h (by simp [State.completeEdge])
      | succ k =>
        injection h with h
        exact .inr (.inr (.inl ⟨hr, w, k, hc, h.symm⟩))

/-- An edge that only waits. -/
theorem step_wait {s : State} {w : Word} {k : Nat} (hr : s.rst = false)
    (hf : s.inFlight = some ⟨w, k + 1⟩) : step s = .next (s.waitEdge w k) := by
  simp [step, clockEdge, hr, hf]

/-- The completing edge. -/
theorem step_complete {s u : State} {w : Word} (hr : s.rst = false)
    (hf : s.inFlight = some ⟨w, 0⟩) (hx : executeWord w s = .next u) :
    step s = .next { u with inFlight := none, cmdReady := true, rspValid := true,
                            host := s.hostHolds } := by
  simp [step, clockEdge, hr, hf, hx, State.completeEdge]

/-- An edge with nothing in flight. -/
theorem step_port {s : State} (hr : s.rst = false) (hf : s.inFlight = none) :
    step s = .next s.portEdge := by
  simp [step, clockEdge, hr, hf]

/-- A reset edge. -/
theorem step_reset {s : State} (hr : s.rst = true) : step s = .next s.resetEdge := by
  simp [step, clockEdge, hr]

/-- The wait of a command depends on nothing but the draw number, the block registers, the key material
and NK: two states that agree on those draw the same one (43_key_schedule.md R196). -/
theorem drawLatency_congr {s u : State} (w : Word) (hd : u.draws = s.draws) (hb : u.b = s.b)
    (hm : u.material = s.material) (hn : u.nk = s.nk) : u.drawLatency w = s.drawLatency w := by
  simp only [State.drawLatency, hd, hb, hm, hn]

/-- The key material is the cells below KM_LEN. -/
theorem material_congr {s u : State} (hl : u.kmLen = s.kmLen)
    (hc : ∀ a < s.kmLen.toNat, u.cell a = s.cell a) : u.material = s.material := by
  unfold State.material
  rw [hl]
  exact List.map_congr_left fun a ha => hc a (by simpa using ha)

/-- Holding the host's moves asserts no reset that was not to come. -/
theorem reset_notMem_hostHolds {s : State} (h : HostMove.reset ∉ s.host) :
    HostMove.reset ∉ s.hostHolds := by
  unfold State.hostHolds
  split <;> simp_all

/-- No reset is asserted at an edge before a reset move. -/
theorem rst_false_of_notMem {s : State} (h : HostMove.reset ∉ s.host) : s.rst = false := by
  unfold State.rst
  split <;> simp_all

end Sys2Proof.Machine
end

