-- ==== Sys2Proof/Laws/Substitution.lean ====
section
/-! SUPPORT. The S-box unit, lane by lane. -/

namespace Sys2Proof.Machine

@[simp] theorem inverseSubstitute_substitute (S : SBox) (n : Nibble) :
    inverseSubstitute S (substitute S n) = n := S.symm_apply_apply n

@[simp] theorem substitute_inverseSubstitute (S : SBox) (n : Nibble) :
    substitute S (inverseSubstitute S n) = n := S.apply_symm_apply n

/-- ISBOX is the table inversion of SBOX: `ISBOX[y]` is the unique x with `SBOX[x] = y` (R101). -/
theorem inverseSubstitute_eq_iff (S : SBox) (x y : Nibble) :
    inverseSubstitute S y = x ↔ substitute S x = y :=
  ⟨fun h => by simp [← h], fun h => by simp [← h]⟩

end Sys2Proof.Machine
end

