-- ==== Sys2Proof/Tests/Slice0.lean ====
section
/-! SUPPORT. Tests. Expected values are 95_test_vectors.md's or worked out by hand from the rules; a
value that depends on the S-box is for the candidate table of R100, which the tests alone use. Then the
witnesses: for every statement with hypotheses, a concrete state and operands that meet them. -/

namespace Sys2Proof.Tests

open Sys2Proof Sys2Proof.Machine

/-! ## Words (30_encoding.md R72, R76) -/

/-- `0000_0001 10 000000 1110...`: `LDI b2, 0xE767`. -/
theorem test_decode_ldi : decode 0x0180E767 = .ok (.ldi .b2 0xE767) := by decide
/-- 95_test_vectors.md §2.6. -/
theorem test_decode_mov : decode 0x02C00000 = .ok (.mov .b3 .b0) := by decide
theorem test_decode_rd : decode 0x03200000 = .ok (.rd .b2) := by decide
/-- `0001_0000 10 01 0…`: `SUB b2, b1`. -/
theorem test_decode_sub : decode 0x10900000 = .ok (.sub .b2 .b1) := by decide
theorem test_decode_isub : decode 0x11F00000 = .ok (.isub .b3 .b3) := by decide
theorem test_decode_sbx : decode 0x12C00010 = .ok (.sbx .b3 16) := by decide
theorem test_decode_isbx : decode 0x13C0000E = .ok (.isbx .b3 14) := by decide
/-- `0010_0000 01 10 0…`: `PERM b1, b2`. -/
theorem test_decode_perm : decode 0x20600000 = .ok (.perm .b1 .b2) := by decide
theorem test_decode_iperm : decode 0x21500000 = .ok (.iperm .b1 .b1) := by decide
theorem test_decode_xor : decode 0x30F40000 = .ok (.xor .b3 .b3 .b1) := by decide
/-- `0011_0001 01 10 11 0…`: `ROUND b1, b2, b3`. -/
theorem test_decode_round : decode 0x316C0000 = .ok (.round .b1 .b2 .b3) := by decide
/-- `0011_0010 11 01 10 0…`: `IROUND b3, b1, b2`. -/
theorem test_decode_iround : decode 0x32D80000 = .ok (.iround .b3 .b1 .b2) := by decide
theorem test_decode_kmclr : decode 0x40000000 = .ok .kmclr := by decide
theorem test_decode_kmpush : decode 0x4100000E = .ok (.kmpush 14) := by decide
theorem test_decode_ksched : decode 0x42000005 = .ok (.ksched 5) := by decide
theorem test_decode_kwin : decode 0x434000FF = .ok (.kwin .b1 255) := by decide
theorem test_decode_enc : decode 0x50400000 = .ok (.enc .b1 .b0) := by decide
theorem test_decode_dec : decode 0x51900000 = .ok (.dec .b2 .b1) := by decide
theorem test_decode_decs : decode 0x52D00000 = .ok (.decs .b3 .b1) := by decide
theorem test_decode_stat : decode 0x60000000 = .ok .stat := by decide
theorem test_decode_clrst : decode 0x61000000 = .ok .clrst := by decide
theorem test_decode_rdks : decode 0x62000000 = .ok .rdks := by decide

/-- The illegal words of 95_test_vectors.md §2.7. -/
theorem test_decode_illegal :
    ([0x00000000, 0xFFFFFFFF, 0x04000000, 0x63000000].map decode).all
      (· == .error .unassignedOpcode) = true ∧
    ([0x30000001, 0x02030000, 0x01100000, 0x12200000, 0x03C00000, 0x41400001, 0x60000001].map
      decode).all (· == .error .reservedBits) = true := by decide

/-- A word shorter than a command has its missing bits 0, and nothing is longer than a command. -/
theorem test_decode_table_word :
    decodeTableWord 32 0x62000000 = some .rdks ∧ decodeTableWord 8 0x62 = none ∧
    decodeTableWord 40 0x62000000 = none := by decide

/-! ## Well-formed words -/

theorem test_wf_refuses_unassigned_opcode :
    opcodeAssigned 0x44000000 = false ∧ legalWord 0x44000000 = false := by decide
theorem test_wf_refuses_reserved_bits :
    opcodeAssigned 0x10000001 = true ∧ reservedBitsClear 0x10000001 = false ∧
    legalWord 0x10000001 = false := by decide
theorem test_wf_accepts : legalWord 0x10500000 = true ∧ legalWord 0x01FFFFFF = false ∧
    legalWord 0x01C0FFFF = true := by decide

/-- No word is two rows of the opcode map: every mask covers the opcode, and no opcode is twice. -/
theorem test_opcode_map_rows_apart :
    opcodeMap.length = 22 ∧ (opcodeMap.map (·.op)).Nodup ∧
    ∀ r ∈ opcodeMap, r.format.mask >>> 24 = 0xFF := by decide

/-! ## Assembly text (30_encoding.md R82, R83) -/

/-- Lines of programs P1 and P5 (95_test_vectors.md §3). -/
theorem test_assembler_lines :
    assembleLine "LDI  b0, [4,14,10,1]".toList = some [.ldi .b0 0x4EA1] ∧
    assembleLine "XOR  b3, b0, b2 ; mix".toList = some [.xor .b3 .b0 .b2] ∧
    assembleLine "KMLOAD 14, 7".toList = some [.kmclr, .kmpush 14, .kmpush 7] ∧
    assembleLine "CLR b2".toList = some [.ldi .b2 0] ∧
    assembleLine "LDI b1, 0xE767".toList = some [.ldi .b1 0xE767] ∧
    assembleLine "; a comment".toList = some [] := by decide

/-- Ill-formed lines: no such register, one operand too few, an immediate that does not fit, a
nibble that does not fit, no such mnemonic. -/
theorem test_assembler_refuses :
    assembleLine "MOV b4, b0".toList = none ∧ assembleLine "XOR b0, b1".toList = none ∧
    assembleLine "KWIN b0, 256".toList = none ∧ assembleLine "LDI b0, [16,0,0,0]".toList = none ∧
    assembleLine "NOP".toList = none := by decide

/-! ## Functions, with the candidate S-box (40_substitution.md R100, R101) -/

/-- The table a vector of nibbles stands for. -/
def tableOf (t : List Nibble) (n : Nibble) : Nibble := t.getD n.toNat 0

/-- The candidate S-box, its inverse being the candidate ISBOX. -/
def candidate : SBox where
  toFun := tableOf [14, 4, 13, 1, 2, 15, 11, 8, 3, 10, 6, 12, 5, 9, 0, 7]
  invFun := tableOf [14, 3, 4, 8, 1, 12, 10, 15, 7, 13, 9, 6, 11, 2, 0, 5]
  left_inv := by decide
  right_inv := by decide

/-- The round keys of scenario 1 (95_test_vectors.md §1.1). -/
def scenarioKeys : List Block := [0xE767, 0x7679, 0x6790, 0x7903, 0x903D]

theorem test_substitutions :
    substitutions candidate 0x0123 = 0xE4D1 ∧ inverseSubstitutions candidate 0x0123 = 0xE348 := by
  decide
theorem test_permute :
    permute 0x4EA1 = 0x6C61 ∧ permute 0x1234 = 0x016A ∧ inversePermute 0x7903 = 0x489D := by decide
theorem test_permute_single_bits :
    permute 0x1000 = 0x0008 ∧ permute 0x0002 = 0x0010 ∧ permute 0x8421 = 0x8421 := by decide
theorem test_rounds :
    fullRound candidate 0x4EA1 0xE767 = 0x5AD3 ∧ inverseRound candidate 0x1234 0x5678 = 0xB5D1 := by
  decide
theorem test_gen_keys :
    genKeys [14, 7, 6, 7, 9, 0, 3, 13] 5 = scenarioKeys ∧
    genKeys [14, 7, 6, 7, 9, 0, 3, 13] 6 = [] ∧ genKeys [] (-5) = [] := by decide
theorem test_transform :
    transform scenarioKeys = [0x903D, 0x489D, 0x2CC6, 0x1EEB, 0xE767] := by decide

/-- A cipher function's result, 0xDEAD where it raised. -/
def valueOf (r : Except ErrorCode Block) : Block := match r with
  | .ok v => v
  | .error _ => 0xDEAD

/-- 0x1BD1 would be the losing reading of 90_conflicts.md C3. -/
theorem test_cipher :
    valueOf (encrypt candidate 0x4EA1 scenarioKeys) = 0x1686 ∧
    valueOf (decrypt candidate 0x1686 scenarioKeys) = 0x4EA1 ∧
    valueOf (decryptSimple candidate 0x1686 scenarioKeys) = 0x4EA1 := by decide
theorem test_cipher_two_keys :
    valueOf (encrypt candidate 0 [0x1234, 0x2345]) = 0x6E57 ∧
    valueOf (encrypt candidate 0 [0x1234]) = 0xDEAD := by decide

/-! ## One step on a small state -/

/-- Five written cells, two keys scheduled: `KM = [1,2,3,4,5]`, `KSCHED 2`. -/
def loaded : State :=
  { State.reset with b := ⟨0x4EA1, 0xE767, 0x0F0F, 0⟩, km := [(0, 1), (1, 2), (2, 3), (3, 4), (4, 5)],
                     kmLen := 5, nk := 2, cmdReady := true }

/-- What a test looks at after a step. -/
structure Seen where
  b : BlockRegs
  kmLen : BitVec 8
  nk : BitVec 8
  status : BitVec 16
  rspErr : BitVec 4
  rspData : BitVec 16
deriving DecidableEq

/-- What is seen of an outcome that is a next state. -/
def seen : Result → Option Seen
  | .next t => some ⟨t.b, t.kmLen, t.nk, t.status.word, t.rspErr, t.rspData⟩
  | _ => none

/-- One step that completes the word. -/
def after (s : State) (w : Nat) : Option Seen := seen (step (s.withFetchWord 32 w))

theorem test_ldi : after .reset 0x01004EA1 = some ⟨⟨0x4EA1, 0, 0, 0⟩, 0, 0, 0, 0, 0x4EA1⟩ := by decide
theorem test_mov :
    after loaded 0x02C00000 = some ⟨⟨0x4EA1, 0xE767, 0x0F0F, 0x4EA1⟩, 5, 2, 0, 0, 0x4EA1⟩ := by decide
theorem test_rd :
    after loaded 0x03100000 = some ⟨⟨0x4EA1, 0xE767, 0x0F0F, 0⟩, 5, 2, 0, 0, 0xE767⟩ := by decide
/-- `SBX b1, 16`: scenario 3. -/
theorem test_sbx_out_of_range :
    after loaded 0x12400010 = some ⟨⟨0x4EA1, 0xE767, 0x0F0F, 0⟩, 5, 2, 0x0011, 1, 0⟩ := by decide
theorem test_isbx_out_of_range :
    after loaded 0x134000FF = some ⟨⟨0x4EA1, 0xE767, 0x0F0F, 0⟩, 5, 2, 0x0011, 1, 0⟩ := by decide
/-- `PERM b0, b2` of `0x0F0F`. -/
theorem test_perm :
    after loaded 0x20200000 = some ⟨⟨0x5555, 0xE767, 0x0F0F, 0⟩, 5, 2, 0, 0, 0x5555⟩ := by decide
/-- `IPERM b0, b0`. -/
theorem test_iperm :
    after loaded 0x21000000 = some ⟨⟨0x6C61, 0xE767, 0x0F0F, 0⟩, 5, 2, 0, 0, 0x6C61⟩ := by decide
/-- `XOR b0, b0, b1`. -/
theorem test_xor :
    after loaded 0x30040000 = some ⟨⟨0xA9C6, 0xE767, 0x0F0F, 0⟩, 5, 2, 0, 0, 0xA9C6⟩ := by decide
/-- With an error recorded, `XOR b0, b1, b2` with bit 17 set keeps the first code. -/
theorem test_illegal_word_keeps_first_error :
    after { loaded with status := ⟨true, 2⟩ } 0x301A0000 =
      some ⟨⟨0x4EA1, 0xE767, 0x0F0F, 0⟩, 5, 2, 0x0021, 5, 0⟩ := by decide
theorem test_kmclr :
    after loaded 0x40000000 = some ⟨⟨0x4EA1, 0xE767, 0x0F0F, 0⟩, 0, 0, 0, 0, 0⟩ := by decide
/-- `KMPUSH 14` after reset. -/
theorem test_kmpush :
    after .reset 0x4100000E = some ⟨⟨0, 0, 0, 0⟩, 1, 0, 0, 0, 1⟩ := by
  rfl
/-- `KMPUSH 16` raises OutOfRange. -/
theorem test_kmpush_out_of_range :
    after loaded 0x41000010 = some ⟨⟨0x4EA1, 0xE767, 0x0F0F, 0⟩, 5, 2, 0x0011, 1, 0⟩ := by decide
/-- `KSCHED 1`. -/
theorem test_ksched :
    after loaded 0x42000001 = some ⟨⟨0x4EA1, 0xE767, 0x0F0F, 0⟩, 5, 1, 0, 0, 1⟩ := by decide
/-- `KWIN b3, 1` gives the second window. -/
theorem test_kwin :
    after loaded 0x43C00001 = some ⟨⟨0x4EA1, 0xE767, 0x0F0F, 0x2345⟩, 5, 2, 0, 0, 0x2345⟩ := by rfl
/-- `KWIN b2, 2` raises KeyIndex. -/
theorem test_kwin_index :
    after loaded 0x43800002 = some ⟨⟨0x4EA1, 0xE767, 0x0F0F, 0⟩, 5, 2, 0x0061, 6, 0⟩ := by decide
/-- ENC, DEC and DECS with one key. -/
theorem test_driver_key_count :
    after { loaded with nk := 1 } 0x50000000 =
      some ⟨⟨0x4EA1, 0xE767, 0x0F0F, 0⟩, 5, 1, 0x0021, 2, 0⟩ ∧
    after .reset 0x51900000 = some ⟨⟨0, 0, 0, 0⟩, 0, 0, 0x0021, 2, 0⟩ ∧
    after .reset 0x52D00000 = some ⟨⟨0, 0, 0, 0⟩, 0, 0, 0x0021, 2, 0⟩ := by decide
theorem test_stat :
    after { loaded with status := ⟨true, 2⟩ } 0x60000000 =
      some ⟨⟨0x4EA1, 0xE767, 0x0F0F, 0⟩, 5, 2, 0x0021, 0, 0x0021⟩ := by decide
/-- `STAT` with bit 0 set. -/
theorem test_stat_reserved :
    after .reset 0x60000001 = some ⟨⟨0, 0, 0, 0⟩, 0, 0, 0x0051, 5, 0⟩ := by decide
theorem test_clrst :
    after { loaded with status := ⟨true, 2⟩ } 0x61000000 =
      some ⟨⟨0x4EA1, 0xE767, 0x0F0F, 0⟩, 5, 2, 0, 0, 0⟩ := by decide
theorem test_rdks :
    after loaded 0x62000000 = some ⟨⟨0x4EA1, 0xE767, 0x0F0F, 0⟩, 5, 2, 0, 0, 0x0205⟩ := by decide

/-- The schedule the block holds is the two windows of program P5. -/
theorem test_keys : loaded.keys = [0x1234, 0x2345] ∧ loaded.material = [1, 2, 3, 4, 5] := by
  decide

/-- Program P6's rows 7 to 11: a buffer of five cells, the strict policy. -/
theorem test_full_buffer_and_strict_schedule :
    seen (pushNibble 5 6 loaded) = some ⟨loaded.b, 5, 2, 0x0071, 7, 0⟩ ∧
    seen (pushNibble 5 16 loaded) = some ⟨loaded.b, 5, 2, 0x0011, 1, 0⟩ ∧
    seen (schedule true 3 loaded) = some ⟨loaded.b, 5, 2, 0x0031, 3, 0⟩ ∧
    seen (schedule false 3 loaded) = some ⟨loaded.b, 5, 0, 0, 0, 0⟩ ∧
    seen (schedule true 0 loaded) = some ⟨loaded.b, 5, 0, 0, 0, 0⟩ := by decide

/-- The first edge after reset makes the block ready and accepts nothing; the word is still offered. -/
theorem test_first_edge_after_reset :
    step { State.reset with host := [.command 0x60000000] } =
      .next { State.reset with host := [.command 0x60000000], cmdReady := true } := by rfl

/-- A reset edge drops the command in flight. -/
theorem test_reset_edge :
    seen (step { loaded with inFlight := some ⟨0x40000000, 0⟩, host := [.reset] }) =
      some ⟨⟨0, 0, 0, 0⟩, 0, 0, 0, 0, 0⟩ := by decide

/-! ## Witnesses -/

theorem kmDepth_ge : 5 ≤ Config.chip.kmDepth := (kmDepth_bounds _).1

/-- The reset state is good. -/
theorem witness_reset_good : Inv State.reset where
  buffer := ⟨Memory.wf_reset, by simp [State.reset], by simp [State.reset], by simp [State.reset]⟩
  schedule := .inl rfl
  status := ⟨by simp [State.reset], fun _ => rfl, by decide, by decide, by simp [State.reset]⟩
  port := ⟨by simp [State.reset], by simp [State.reset]⟩

/-- The loaded state is good. -/
theorem witness_loaded_good : Inv loaded where
  buffer :=
    ⟨by decide, by have := kmDepth_ge; simp [loaded]; omega, by decide,
      by have := kmDepth_ge; simp [loaded, State.reset]; omega⟩
  schedule := by right; decide
  status :=
    ⟨fun h => absurd h (by decide), fun _ => rfl, by decide, by decide,
      fun h => absurd h (by decide)⟩
  port := ⟨fun _ => rfl, by decide⟩

/-- The loaded state with a command in flight. -/
def flying (w : Word) (k : Nat) : State :=
  { loaded with cmdReady := false, inFlight := some ⟨w, k⟩ }

theorem witness_flying_good (w : Word) (k : Nat) : Inv (flying w k) where
  buffer := witness_loaded_good.buffer.1 |> fun h =>
    ⟨h, witness_loaded_good.buffer.2, witness_loaded_good.buffer.3, witness_loaded_good.buffer.4⟩
  schedule := witness_loaded_good.schedule
  status := ⟨witness_loaded_good.status.1, witness_loaded_good.status.2, witness_loaded_good.status.3⟩
  port := ⟨fun h => absurd h (by simp [flying]), fun h => absurd h (by simp [flying, loaded, State.reset])⟩

/-- A command of each kind of frame answers a next state. -/
theorem answers {i : Instr} {s : State} (h : (seen (exec i s)).isSome = true) :
    ∃ t, exec i s = .next t := by
  cases hx : exec i s with
  | next t => exact ⟨t, rfl⟩
  | fault f => rw [hx] at h; cases h
  | refused r => rw [hx] at h; cases h

theorem witness_EncodeInvertsDecode : decode 0x10900000 = .ok (.sub .b2 .b1) := by decide

/-- Both ends of every unassigned range of R78, and the last assigned opcode before it is none. -/
theorem witness_UnassignedOpcodesRaiseIllegalCommand :
    [0x00, 0x04, 0x0F, 0x14, 0x1F, 0x22, 0x2F, 0x33, 0x3F, 0x44, 0x4F, 0x53, 0x5F, 0x63, 0xFF].all
      (fun op => decode (BitVec.ofNat 32 (op * 2 ^ 24)) == .error .unassignedOpcode) = true ∧
    [0x03, 0x10, 0x13, 0x20, 0x21, 0x30, 0x32, 0x40, 0x43, 0x50, 0x52, 0x60, 0x62].all
      (fun op => decode (BitVec.ofNat 32 (op * 2 ^ 24)) != .error .unassignedOpcode) = true := by
  decide

/-- Every row has a word of its opcode with a reserved bit set. -/
theorem witness_ReservedBitsRaiseIllegalCommand :
    ∀ r ∈ opcodeMap, ∃ w : Word, (w >>> 24).toNat = r.op.toNat ∧
      w &&& r.format.mask &&& 0x00FFFFFF ≠ 0 := by
  intro r hr
  refine ⟨r.matchWord ||| 0x00010000, ?_⟩
  revert r
  decide

theorem witness_StepRunsTheDecodedCommand :
    (flying 0x61000000 0).rst = false ∧ (flying 0x61000000 0).inFlight = some ⟨0x61000000, 0⟩ ∧
    decode 0x61000000 = .ok .clrst ∧ ∃ u, exec .clrst (flying 0x61000000 0) = .next u :=
  ⟨rfl, rfl, by decide, _, rfl⟩

theorem witness_ReadOutAndClearFrame :
    (∃ t, exec (.rd .b3) loaded = .next t) ∧ (∃ t, exec .stat loaded = .next t) ∧
    (∃ t, exec .rdks loaded = .next t) ∧ ∃ t, exec .clrst loaded = .next t :=
  ⟨⟨_, rfl⟩, ⟨_, rfl⟩, ⟨_, rfl⟩, ⟨_, rfl⟩⟩

theorem witness_ScalarLookupsComplete :
    (15 : BitVec 8).toNat ≤ 15 ∧ 16 ≤ (16 : BitVec 8).toNat := by decide

theorem witness_KeyMixingIsAnInvolution : Reg.b0 ≠ Reg.b1 := by decide

/-- The boundary values of KMPUSH's immediate and of its buffer: the last free cell, and none. -/
theorem witness_PushAppendsOneCell :
    (15 : BitVec 8).toNat ≤ 15 ∧ State.reset.kmLen.toNat < Config.chip.kmDepth ∧
    ({ State.reset with kmLen := BitVec.ofNat 8 (Config.chip.kmDepth - 1) } : State).kmLen.toNat <
      Config.chip.kmDepth := by
  have h := kmDepth_bounds Config.chip
  refine ⟨by decide, ?_, ?_⟩
  · simp [State.reset]; omega
  · simp only [BitVec.toNat_ofNat]; omega

theorem witness_PushRaises :
    16 ≤ (16 : BitVec 8).toNat ∧ (15 : BitVec 8).toNat ≤ 15 ∧
    ({ State.reset with kmLen := BitVec.ofNat 8 Config.chip.kmDepth } : State).kmLen.toNat =
      Config.chip.kmDepth := by
  have h := kmDepth_bounds Config.chip
  refine ⟨by decide, by decide, ?_⟩
  simp only [BitVec.toNat_ofNat]
  omega

/-- `KSCHED` of 0, of the largest length five nibbles hold, and of one more. -/
theorem witness_ScheduleSetsItsLength :
    (2 : BitVec 8) ≠ 0 ∧ (2 : BitVec 8).toNat + 3 ≤ loaded.kmLen.toNat ∧
    (3 : BitVec 8) ≠ 0 ∧ loaded.kmLen.toNat < (3 : BitVec 8).toNat + 3 := by decide

theorem witness_WindowIsExtracted :
    Inv loaded ∧ (1 : BitVec 8).toNat < loaded.nk.toNat ∧ loaded.nk.toNat ≤ (2 : BitVec 8).toNat :=
  ⟨witness_loaded_good, by decide, by decide⟩

/-- `gen_keys` at the edge of its guard, and below zero. -/
theorem witness_GenKeysSlicesWindows :
    (2 : Int) < ([1, 2, 3, 4, 5] : List Nibble).length - 2 ∧
    (([1, 2, 3, 4, 5] : List Nibble).length : Int) - 2 ≤ 3 ∧
    (-5 : Int) < ([] : List Nibble).length - 2 ∧ (0 : Int) ≤ 2 := by decide

theorem witness_ScheduleIsGenKeys :
    Inv loaded ∧ ∃ t, schedule true 2 loaded = .next t ∧ t.rspErr = 0 :=
  ⟨witness_loaded_good, _, rfl, rfl⟩

theorem witness_ScheduleSurvivesPushNotClear :
    Inv loaded ∧ (∃ t, exec (.kmpush 16) loaded = .next t) ∧
    (Inv State.reset ∧ ∃ t, exec (.kmpush 5) .reset = .next t ∧ t.rspErr = 0) ∧
    ∃ t, exec .kmclr loaded = .next t :=
  ⟨witness_loaded_good, answers (by decide), ⟨witness_reset_good, _, rfl, rfl⟩, _, rfl⟩

/-- The least depth holds five nibbles. -/
theorem witness_KmloadLoadsTheMaterial :
    ([1, 2, 3, 4, 5] : List Nibble).length ≤ Config.chip.kmDepth := kmDepth_ge

theorem witness_KeyCommandsFrame :
    (∃ t, exec .kmclr loaded = .next t ∧ t.rspErr = 0) ∧
    (∃ t, exec (.kmpush 5) .reset = .next t ∧ t.rspErr = 0 ∧ 1 ≠ State.reset.kmLen.toNat) ∧
    ∃ t, exec (.ksched 2) loaded = .next t ∧ t.rspErr = 0 :=
  ⟨⟨_, rfl, rfl⟩, ⟨_, rfl, rfl, by decide⟩, _, rfl, rfl⟩

theorem witness_CipherFunctionsNeedTwoKeys :
    ([0x1234] : List Block).length < 2 ∧ 2 ≤ ([0x1234, 0x2345] : List Block).length := by decide

theorem witness_DecryptionsUndoEncryption : 2 ≤ scenarioKeys.length := by decide

theorem witness_DecryptionsAreOneFunction : 2 ≤ ([0x1234, 0x2345] : List Block).length := by decide

/-- The boundary: exactly two keys. -/
theorem witness_DriverCommandsComplete : Inv loaded ∧ 2 ≤ loaded.nk.toNat :=
  ⟨witness_loaded_good, by decide⟩

theorem witness_DriverCommandsNeedTwoKeys :
    State.reset.nk.toNat < 2 ∧ ({ loaded with nk := 1 } : State).nk.toNat < 2 := by decide

theorem witness_DriverRoundTrip : Inv loaded ∧ 2 ≤ loaded.nk.toNat :=
  ⟨witness_loaded_good, by decide⟩

/-- A writer that completes and one that raises. -/
theorem witness_BlockWritersFrame :
    (destOf (.sub .b3 .b3) = some .b3 ∧ ∃ t, exec (.sub .b3 .b3) loaded = .next t ∧ t.rspErr = 0) ∧
    destOf (.sbx .b1 16) = some .b1 ∧ ∃ t, exec (.sbx .b1 16) loaded = .next t ∧ t.rspErr ≠ 0 :=
  ⟨⟨rfl, _, rfl, rfl⟩, rfl, _, rfl, by decide⟩

theorem witness_ErrorsWriteOnlyStatus :
    (∃ t, executeWord 0 loaded = .next t ∧ t.rspErr ≠ 0) ∧
    (flying 0 0).rst = false ∧ (flying 0 0).inFlight = some ⟨0, 0⟩ ∧
    ∃ u, executeWord 0 (flying 0 0) = .next u :=
  ⟨⟨_, rfl, by decide⟩, rfl, rfl, _, rfl⟩

theorem witness_StatusKeepsTheFirstError :
    ∃ t, executeWord 0xFFFFFFFF loaded = .next t ∧ decode 0xFFFFFFFF ≠ .ok .clrst ∧ t.rspErr = 5 :=
  ⟨_, rfl, by decide, by decide⟩

/-- A word of each kind the statement tells apart executes. -/
theorem witness_EveryErrorHasItsCause :
    (∃ t, executeWord 0x12400010 loaded = .next t ∧ t.rspErr = 1) ∧
    (∃ t, executeWord 0x50000000 .reset = .next t ∧ t.rspErr = 2) ∧
    (∃ t, executeWord 0x10000001 loaded = .next t ∧ t.rspErr = 5) ∧
    (∃ t, executeWord 0x43800002 loaded = .next t ∧ t.rspErr = 6) ∧
    ∃ t, executeWord 0x62000000 loaded = .next t ∧ t.rspErr = 0 :=
  ⟨⟨_, rfl, rfl⟩, ⟨_, rfl, rfl⟩, ⟨_, rfl, rfl⟩, ⟨_, rfl, rfl⟩, _, rfl, rfl⟩

/-- Other values in B0, B2 and B3 than the source's, B1. -/
theorem witness_OnlyNamedRegistersMatter :
    (∃ t, exec (.sub .b2 .b1) loaded = .next t) ∧ destOf (.sub .b2 .b1) ≠ some .b0 ∧
    ∀ r ∈ sourcesOf (.sub .b2 .b1), (⟨1, 0xE767, 2, 3⟩ : BlockRegs).get r = loaded.readB r :=
  ⟨⟨_, rfl⟩, by decide, by decide⟩

theorem witness_ReadsAreIdempotent :
    (∃ t, exec (.kwin .b0 1) loaded = .next t ∧ t.rspErr = 0) ∧
    (∃ t, exec (.kwin .b0 2) loaded = .next t ∧ t.rspErr = 6) ∧ ∃ t, exec .rdks loaded = .next t :=
  ⟨⟨_, rfl, rfl⟩, ⟨_, rfl, rfl⟩, _, rfl⟩

/-- Cell 5, just past the material, differs. -/
theorem witness_HiddenCellsNeverReachAnything :
    Inv loaded ∧ AgreeBelowLength loaded { loaded with km := loaded.km ++ [(5, 9)] } ∧
    ∃ t, exec (.kwin .b0 1) loaded = .next t := by
  refine ⟨witness_loaded_good, ⟨rfl, rfl, rfl, rfl, rfl, rfl, ?_⟩, _, rfl⟩
  decide

theorem witness_EveryStepKeepsTheStateGood :
    Inv (flying 0x40000000 0) ∧ ∃ t, step (flying 0x40000000 0) = .next t :=
  ⟨witness_flying_good _ _, _, rfl⟩

theorem witness_GoodStatesNeverStop : Inv (flying 0x52D00000 0) := witness_flying_good _ _

theorem witness_EveryAcceptedCommandCompletes :
    Inv (flying 0x61000000 3) ∧ HostMove.reset ∉ (flying 0x61000000 3).host ∧
    (flying 0x61000000 3).inFlight = some ⟨0x61000000, 3⟩ :=
  ⟨witness_flying_good _ _, by decide, rfl⟩

/-- The loaded state before a host that offers a word, the block being ready or not. -/
def offering (ready : Bool) : State :=
  { loaded with cmdReady := ready, host := [.command 0x62000000, .idle] }

theorem witness_offering_good (ready : Bool) : Inv (offering ready) where
  buffer := ⟨witness_loaded_good.buffer.1, witness_loaded_good.buffer.2, witness_loaded_good.buffer.3,
    witness_loaded_good.buffer.4⟩
  schedule := witness_loaded_good.schedule
  status := ⟨witness_loaded_good.status.1, witness_loaded_good.status.2, witness_loaded_good.status.3⟩
  port := ⟨fun _ => rfl, fun h => absurd h (by simp [offering, loaded, State.reset])⟩

/-- Cell 5 differs, at an edge that accepts a command and draws its wait. -/
theorem witness_HiddenCellsNeverReachThePorts :
    Inv (offering true) ∧
    AgreeBelowLength (offering true) { offering true with km := loaded.km ++ [(5, 9)] } ∧
    SamePorts (offering true) { offering true with km := loaded.km ++ [(5, 9)] } ∧
    ∃ t, step (offering true) = .next t := by
  refine ⟨witness_offering_good _, ⟨rfl, rfl, rfl, rfl, rfl, rfl, ?_⟩, ⟨rfl, rfl, rfl, rfl, rfl⟩, _, rfl⟩
  decide

theorem witness_OfferedCommandsAreAnswered :
    Inv (offering false) ∧ (offering false).inFlight = none ∧
    (offering false).host = .command 0x62000000 :: [.idle] ∧ HostMove.reset ∉ [HostMove.idle] :=
  ⟨witness_offering_good _, rfl, rfl, by decide⟩

theorem witness_AcceptanceNeedsValidAndReady :
    (Inv (offering true) ∧ (offering true).host = .command 0x62000000 :: [.idle] ∧
      (offering true).cmdReady = true) ∧
    (offering false).host = .command 0x62000000 :: [.idle] ∧ (offering false).cmdReady = false ∧
    (∃ t, step (offering false) = .next t) ∧ (offering false).rst = false ∧
    (offering false).inFlight = none :=
  ⟨⟨witness_offering_good _, rfl, rfl⟩, rfl, rfl, ⟨_, rfl⟩, rfl, rfl⟩

theorem witness_ResponseIsHeld :
    (∃ t, step (flying 0x60000000 2) = .next t) ∧ (flying 0x60000000 2).rst = false ∧
    ∀ w, (flying 0x60000000 2).inFlight ≠ some ⟨w, 0⟩ :=
  ⟨⟨_, rfl⟩, rfl, by intro w h; simp [flying] at h⟩

/-- A command is in flight while reset is held for one edge. -/
theorem witness_ResetDiscardsTheCommandInFlight :
    ({ flying 0x40000000 0 with host := [.reset] } : State).rst = true := by decide

end Sys2Proof.Tests
end

section
/-! PROOF. The packed State of 00_scope.md R9 as a number, and its bit index. -/

namespace Sys2Proof.Machine

/-- Appending a nibble shifts the number one hex digit up. -/
theorem toNat_append_nibble {w : Nat} (x : BitVec w) (n : Nibble) :
    (x ++ n).toNat = x.toNat * 2 ^ 4 + n.toNat := by
  rw [BitVec.toNat_append, ← Nat.shiftLeft_add_eq_or_of_lt n.isLt, Nat.shiftLeft_eq]

theorem toNat_pack (n0 n1 n2 n3 : Nibble) :
    (pack n0 n1 n2 n3).toNat =
      n0.toNat * 2 ^ 12 + n1.toNat * 2 ^ 8 + n2.toNat * 2 ^ 4 + n3.toNat := by
  change (n0 ++ n1 ++ n2 ++ n3).toNat = _
  simp only [toNat_append_nibble]
  omega

/-- State bit `4j + i` is bit `i` of nibble `j`, both counted from the top. -/
theorem stateBit_eq_getLsbD_nib (v : Block) {j i : Nat} (hj : j < 4) (hi : i < 4) :
    stateBit v (4 * j + i) = (nib v j).getLsbD (3 - i) := by
  have hbit : 15 - (4 * j + i) = 12 - 4 * j + (3 - i) := by omega
  have hin : 3 - i < 4 := by omega
  rw [stateBit, hbit, getLsbD_nib, decide_eq_true hin, Bool.true_and]

/-- Settles O9: packing by hex digits, unpacking by the bits of a packed State; the index of state
bit `sb` is `stateBit`'s definition. -/
theorem packedStateLayout : Obligations.PackedStateLayout :=
  ⟨toNat_pack,
    fun n0 n1 n2 n3 => ⟨nib_pack_0 n0 n1 n2 n3, nib_pack_1 n0 n1 n2 n3, nib_pack_2 n0 n1 n2 n3,
      nib_pack_3 n0 n1 n2 n3⟩,
    pack_nib,
    fun v _ hj _ hi => stateBit_eq_getLsbD_nib v hj hi,
    fun _ _ _ => rfl,
    by decide⟩

end Sys2Proof.Machine
end

section
/-! PROOF. The illegal words of 30_encoding.md R77 and R78: what the decoder makes of an opcode in
the map and of one outside it, the reserved bits of a format as a mask, and the command that raises. -/

namespace Sys2Proof

/-- The mask of bits `lo + n - 1 : lo`. -/
def fieldMask (lo n : Nat) : Word := (BitVec.allOnes n).setWidth 32 <<< lo

theorem getLsbD_fieldMask (lo n i : Nat) :
    (fieldMask lo n).getLsbD i = decide (i < 32 ∧ lo ≤ i ∧ i < lo + n) := by
  rw [fieldMask, BitVec.getLsbD_shiftLeft, BitVec.getLsbD_setWidth, BitVec.getLsbD_allOnes]
  simp only [← Bool.decide_and, ← decide_not, decide_eq_decide]
  omega

/-- `clearBits` tests the word against the mask of its bits. -/
theorem clearBits_iff (w : Word) (lo n : Nat) :
    clearBits w lo n = true ↔ w &&& fieldMask lo n = 0 := by
  rw [clearBits, beq_iff_eq]
  constructor
  · intro h
    refine BitVec.eq_of_getLsbD_eq fun i _ => ?_
    have hbit : (w.extractLsb' lo n).getLsbD (i - lo) = false := by simp [h]
    rw [BitVec.getLsbD_extractLsb'] at hbit
    rw [BitVec.getLsbD_and, getLsbD_fieldMask]
    grind
  · intro h
    refine extractLsb'_eq_of_bits fun i hi => ?_
    have hbit : (w &&& fieldMask lo n).getLsbD (lo + i) = false := by simp [h]
    rw [BitVec.getLsbD_and, getLsbD_fieldMask] at hbit
    grind

/-- The format's reserved bits are clear, as the decoder tests it. -/
def Format.reservedClear (w : Word) : Format → Bool
  | .r3  => clearBits w 0 18
  | .r2  => clearBits w 0 20
  | .r1s => clearBits w 22 2 && clearBits w 0 20
  | .i16 => clearBits w 16 6
  | .i8d => clearBits w 8 14
  | .i8  => clearBits w 8 16
  | .n   => clearBits w 0 24

/-- The decoder's reserved bits are those of R72's mask below the opcode: the mask's literal evaluates
to the `fieldMask` of the range, of the two ranges for format R1S. -/
theorem Format.reservedClear_iff (f : Format) (w : Word) :
    f.reservedClear w = true ↔ w &&& f.mask &&& 0x00FFFFFF = 0 := by
  rw [BitVec.and_assoc]
  cases f with
  | r3 => exact clearBits_iff w 0 18
  | r2 => exact clearBits_iff w 0 20
  | r1s =>
    have hmask : Format.r1s.mask &&& 0x00FFFFFF = fieldMask 22 2 ||| fieldMask 0 20 := by decide
    rw [Format.reservedClear, Bool.and_eq_true, clearBits_iff, clearBits_iff, hmask,
      BitVec.and_or_distrib_left]
    exact BitVec.or_eq_zero_iff.symm
  | i16 => exact clearBits_iff w 16 6
  | i8d => exact clearBits_iff w 8 14
  | i8 => exact clearBits_iff w 8 16
  | n => exact clearBits_iff w 0 24

theorem toNat_opField (w : Word) : (opField w).toNat = (w >>> 24).toNat := by
  have := w.isLt
  rw [opField, BitVec.extractLsb'_toNat, BitVec.toNat_ushiftRight, Nat.shiftRight_eq_div_pow]
  omega

/-- An opcode outside the map is unassigned, whatever the other bits (R78). -/
theorem decode_of_unmapped {w : Word} (h : ∀ r ∈ opcodeMap, (opField w).toNat ≠ r.op.toNat) :
    decode w = .error .unassignedOpcode := by
  simp only [opcodeMap, List.forall_mem_append, List.forall_mem_cons, BitVec.ofNat_eq_ofNat,
    BitVec.reduceToNat] at h
  unfold decode
  split
  case h_23 => rfl
  all_goals omega

/-- An opcode of the map selects a command, subject to the reserved bits of the row's format (R77). -/
theorem decode_of_mapped {w : Word} {r : OpRow} (hr : r ∈ opcodeMap)
    (hop : (opField w).toNat = r.op.toNat) :
    ∃ i, decode w = orReserved (r.format.reservedClear w) i := by
  simp only [opcodeMap, List.cons_append, List.nil_append, List.mem_cons, List.not_mem_nil,
    or_false] at hr
  rcases hr with rfl | rfl | rfl | rfl | rfl | rfl | rfl | rfl | rfl | rfl | rfl | rfl | rfl | rfl |
    rfl | rfl | rfl | rfl | rfl | rfl | rfl | rfl <;> exact ⟨_, by rw [decode, hop]; rfl⟩

namespace Machine

/-- A raised error writes STATUS and the response, nothing else (60_exceptions.md R300, R302). -/
theorem raisedOnly_raised (s : State) (e : ErrorCode) : RaisedOnly s e.code (raised s e) :=
  ⟨rfl, rfl, rfl, fun _ => rfl, fun _ => rfl, ⟨rfl, rfl⟩, rfl, rfl, rfl, rfl, rfl, rfl⟩

/-- A word the decoder rejects, for either reason, raises IllegalCommand only (R80). -/
theorem executeWord_raises_of_decode_error {w : Word} {e : DecodeError}
    (h : decode w = .error e) (s : State) :
    ∃ t, executeWord w s = .next t ∧ RaisedOnly s 5 t :=
  ⟨raised s .illegalCommand, by rw [executeWord, h]; rfl, raisedOnly_raised s .illegalCommand⟩

/-- The opcode values that R78 lists as unassigned. -/
abbrev UnassignedOpcode (op : Nat) : Prop :=
  op = 0x00 ∨ (0x04 ≤ op ∧ op ≤ 0x0F) ∨ (0x14 ≤ op ∧ op ≤ 0x1F) ∨ (0x22 ≤ op ∧ op ≤ 0x2F) ∨
    (0x33 ≤ op ∧ op ≤ 0x3F) ∨ (0x44 ≤ op ∧ op ≤ 0x4F) ∨ (0x53 ≤ op ∧ op ≤ 0x5F) ∨
    (0x63 ≤ op ∧ op ≤ 0xFF)

/-- No row of the map has an opcode that R78 lists. -/
theorem not_unassignedOpcode_of_mem_opcodeMap :
    ∀ r ∈ opcodeMap, ¬ UnassignedOpcode r.op.toNat := by
  decide

theorem decode_of_unassignedOpcode {w : Word} (h : UnassignedOpcode (w >>> 24).toNat) :
    decode w = .error .unassignedOpcode := by
  refine decode_of_unmapped fun r hr hop => not_unassignedOpcode_of_mem_opcodeMap r hr ?_
  rwa [← hop, toNat_opField]

/-- Settles O4: R78's ranges and the map of R76 are apart, so the decoder rejects the word. -/
theorem unassignedOpcodesRaiseIllegalCommand :
    Obligations.UnassignedOpcodesRaiseIllegalCommand := by
  have hraise (w : Word) (s : State) (h : UnassignedOpcode (w >>> 24).toNat) :
      ∃ t, executeWord w s = .next t ∧ RaisedOnly s 5 t :=
    executeWord_raises_of_decode_error (decode_of_unassignedOpcode h) s
  exact ⟨hraise, fun s => hraise _ s (by decide), fun s => hraise _ s (by decide)⟩

/-- Settles O5: the row's format rejects a word whose reserved bits are not all clear. -/
theorem reservedBitsRaiseIllegalCommand : Obligations.ReservedBitsRaiseIllegalCommand := by
  intro r hr w s hop hbits
  obtain ⟨i, hi⟩ := decode_of_mapped hr ((toNat_opField w).trans hop)
  have hclear : r.format.reservedClear w = false :=
    Bool.eq_false_iff.2 fun h => hbits ((Format.reservedClear_iff _ w).1 h)
  rw [hclear] at hi
  exact executeWord_raises_of_decode_error hi s

end Machine

end Sys2Proof
end

section
/-! PROOF. KMLOAD of 30_encoding.md R83: what KMCLR and each KMPUSH of a nibble that fits leave, and
by induction what the expansion leaves. -/

namespace Sys2Proof.Machine

/-! ## KMPUSH of a nibble that fits (43_key_schedule.md R193) -/

theorem exec_kmpush_of_lt {s : State} {v : BitVec 8} (hv : v.toNat ≤ 15)
    (hl : s.kmLen.toNat < Config.chip.kmDepth) :
    exec (.kmpush v) s = .next (pushed s (v.setWidth 4)) := by
  change pushNibble _ v s = _
  rw [pushNibble, candidateNibble_ok hv, State.check, if_neg (by omega), cellExists,
    if_pos (by simpa using hl)]
  rfl

theorem exec_kmpush_nibble {s : State} (n : Nibble) (hl : s.kmLen.toNat < Config.chip.kmDepth) :
    exec (.kmpush (n.setWidth 8)) s = .next (pushed s n) := by
  have hv : (n.setWidth 8).toNat ≤ 15 := by
    have := n.isLt
    rw [BitVec.toNat_setWidth]
    omega
  rw [exec_kmpush_of_lt hv hl, BitVec.setWidth_setWidth_of_le n (by omega), BitVec.setWidth_eq]

theorem toNat_kmLen_pushed {s : State} (n : Nibble) (hl : s.kmLen.toNat < Config.chip.kmDepth) :
    (pushed s n).kmLen.toNat = s.kmLen.toNat + 1 := by
  have := (kmDepth_bounds Config.chip).2
  have hone : (1 : BitVec 8).toNat = 1 := rfl
  rw [pushed, BitVec.toNat_add, hone]
  omega

theorem cell_pushed (s : State) (n : Nibble) (a : Nat) :
    (pushed s n).cell a = if a = s.kmLen.toNat then n else s.cell a :=
  Memory.cell_write s (s.kmLen + 1) s.kmLen.toNat a n

theorem material_pushed {s : State} (n : Nibble) (hl : s.kmLen.toNat < Config.chip.kmDepth) :
    (pushed s n).material = s.material ++ [n] := by
  rw [State.material, toNat_kmLen_pushed n hl, List.range_succ, List.map_append, List.map_singleton,
    cell_pushed, if_pos rfl]
  congr 1
  refine List.map_congr_left fun a ha => ?_
  rw [cell_pushed, if_neg (List.mem_range.1 ha).ne]

/-! ## A list of nibbles that fits -/

/-- From `s` to `t` the nibbles `ns` were appended to the key material, with no error. -/
structure Appended (s : State) (ns : List Nibble) (t : State) : Prop where
  rspErr : s.rspErr = 0 → t.rspErr = 0
  kmLen : t.kmLen.toNat = s.kmLen.toNat + ns.length
  nk : t.nk = s.nk
  material : t.material = s.material ++ ns
  blocks : BlocksKept s t
  status : t.status = s.status

theorem Appended.nil (s : State) : Appended s [] s :=
  ⟨id, rfl, rfl, (List.append_nil _).symm, fun _ => rfl, rfl⟩

/-- One KMPUSH before a list of them. -/
theorem Appended.cons {s t : State} {n : Nibble} {ns : List Nibble}
    (hl : s.kmLen.toNat < Config.chip.kmDepth) (h : Appended (pushed s n) ns t) :
    Appended s (n :: ns) t where
  rspErr _ := h.rspErr rfl
  kmLen := by rw [h.kmLen, toNat_kmLen_pushed n hl, List.length_cons]; omega
  nk := h.nk
  material := by rw [h.material, material_pushed n hl, List.append_assoc, List.singleton_append]
  blocks := h.blocks
  status := h.status

/-- KMPUSH of each nibble in order appends them, where they fit. -/
theorem issueAll_kmpush_appends (ns : List Nibble) (s : State)
    (hl : s.kmLen.toNat + ns.length ≤ Config.chip.kmDepth) :
    ∃ t, issueAll ((ns.map (·.setWidth 8)).map .kmpush) s = .next t ∧ Appended s ns t := by
  induction ns generalizing s with
  | nil => exact ⟨s, rfl, .nil s⟩
  | cons n ns ih =>
    rw [List.length_cons] at hl
    have hlt : s.kmLen.toNat < Config.chip.kmDepth := by omega
    obtain ⟨t, ht, happ⟩ := ih (pushed s n) (by rw [toNat_kmLen_pushed n hlt]; omega)
    refine ⟨t, ?_, happ.cons hlt⟩
    rw [List.map_cons, List.map_cons, issueAll, exec_kmpush_nibble n hlt]
    exact ht

/-- Settles O35: KMCLR empties the material, and the KMPUSHes append theirs to nothing. -/
theorem kmloadLoadsTheMaterial : Obligations.KmloadLoadsTheMaterial := by
  refine ⟨fun _ => rfl, fun _ => rfl, fun s ns hl => ?_⟩
  obtain ⟨t, ht, happ⟩ :=
    issueAll_kmpush_appends ns (answered { s with kmLen := 0, nk := 0 } 0)
      (by simpa [answered] using hl)
  exact ⟨t, ht, happ.rspErr rfl, by simpa [answered] using happ.kmLen, happ.nk, happ.material,
    happ.blocks, happ.status⟩

end Sys2Proof.Machine
end

section
/-! PROOF. The substitution layer of 40_substitution.md, R103 and R108: each layer lane by lane, the
two as mutual inverses, and the commands SUB and ISUB that run them. ISUB's layer is SUB's for the
inverse S-box, so that each law is proved for one layer and holds for both. -/

namespace Sys2Proof.Machine

/-! ## The layers -/

theorem inverseSubstitutions_eq_substitutions_symm (S : SBox) (v : Block) :
    inverseSubstitutions S v = substitutions S.symm v := rfl

theorem nib_substitutions (S : SBox) (v : Block) {j : Nat} (hj : j < 4) :
    nib (substitutions S v) j = substitute S (nib v j) := by
  unfold substitutions
  interval_cases j
  · exact nib_pack_0 ..
  · exact nib_pack_1 ..
  · exact nib_pack_2 ..
  · exact nib_pack_3 ..

theorem nib_inverseSubstitutions (S : SBox) (v : Block) {j : Nat} (hj : j < 4) :
    nib (inverseSubstitutions S v) j = inverseSubstitute S (nib v j) := by
  rw [inverseSubstitutions_eq_substitutions_symm]
  exact nib_substitutions S.symm v hj

/-- Settles O16: lane `j` of a packing is its `j`-th nibble. -/
theorem substitutionsActLaneByLane : Obligations.SubstitutionsActLaneByLane :=
  fun S v => ⟨fun _ hj => ⟨nib_substitutions S v hj, nib_inverseSubstitutions S v hj⟩, rfl, rfl⟩

/-- The lookups cancel in each lane, and the lanes pack to the value. -/
@[simp] theorem inverseSubstitutions_substitutions (S : SBox) (v : Block) :
    inverseSubstitutions S (substitutions S v) = v := by
  unfold inverseSubstitutions
  simp only [nib_substitutions S v, Nat.reduceLT, inverseSubstitute_substitute, pack_nib]

@[simp] theorem substitutions_inverseSubstitutions (S : SBox) (v : Block) :
    substitutions S (inverseSubstitutions S v) = v := by
  have h := inverseSubstitutions_substitutions S.symm v
  rwa [inverseSubstitutions_eq_substitutions_symm, Equiv.symm_symm,
    ← inverseSubstitutions_eq_substitutions_symm] at h

/-! ## The commands -/

theorem exec_sub (rd rs : Reg) (s : State) :
    exec (.sub rd rs) s = .next (wrote s rd (substitutions Config.chip.sbox (s.readB rs))) := rfl

theorem exec_isub (rd rs : Reg) (s : State) :
    exec (.isub rd rs) s =
      .next (wrote s rd (inverseSubstitutions Config.chip.sbox (s.readB rs))) := rfl

@[simp] theorem readB_wrote_self (s : State) (r : Reg) (v : Block) : (wrote s r v).readB r = v :=
  s.readB_writeB_self r v

theorem readB_wrote_of_ne (s : State) {r q : Reg} (v : Block) (h : q ≠ r) :
    (wrote s r v).readB q = s.readB q :=
  s.readB_writeB_of_ne v h

/-- A register that gets its old value back after one other write leaves all registers as they
were. -/
theorem blocksKept_wrote_readB (s : State) (r : Reg) (v : Block) :
    BlocksKept s (wrote (wrote s r v) r (s.readB r)) := by
  intro q
  by_cases hq : q = r
  · rw [hq, readB_wrote_self]
  · rw [readB_wrote_of_ne _ _ hq, readB_wrote_of_ne _ _ hq]

theorem sub_isub_blocksKept (s : State) (r : Reg) :
    ∃ t u, exec (.sub r r) s = .next t ∧ exec (.isub r r) t = .next u ∧ BlocksKept s u := by
  refine ⟨_, _, exec_sub r r s, exec_isub r r _, ?_⟩
  rw [readB_wrote_self, inverseSubstitutions_substitutions]
  exact blocksKept_wrote_readB s r _

theorem isub_sub_blocksKept (s : State) (r : Reg) :
    ∃ t u, exec (.isub r r) s = .next t ∧ exec (.sub r r) t = .next u ∧ BlocksKept s u := by
  refine ⟨_, _, exec_isub r r s, exec_sub r r _, ?_⟩
  rw [readB_wrote_self, substitutions_inverseSubstitutions]
  exact blocksKept_wrote_readB s r _

/-- Settles O17: the S-box and its inverse cancel on a nibble, so in each lane, so in the register
that both commands write. -/
theorem sboxLayersAreMutualInverses : Obligations.SboxLayersAreMutualInverses :=
  ⟨fun S n => ⟨inverseSubstitute_substitute S n, substitute_inverseSubstitute S n⟩,
    fun S v => ⟨inverseSubstitutions_substitutions S v, substitutions_inverseSubstitutions S v⟩,
    fun s r => ⟨sub_isub_blocksKept s r, isub_sub_blocksKept s r⟩⟩

end Sys2Proof.Machine
end

section
/-! PROOF. The permutation layer of 41_permutation.md, R130 to R136: the table by its formula, the
derived inverse table as the same table, and the algorithm by the state bits it moves. -/

namespace Sys2Proof.Machine

/-! ## The tables -/

/-- R130's formula: the table exchanges the nibble `b / 4` and the bit within it, `b % 4`. -/
theorem permTable_getD : ∀ b < 16, permTable.getD b 0 = 4 * (b % 4) + b / 4 := by decide

theorem permTable_getD_lt {b : Nat} (hb : b < 16) : permTable.getD b 0 < 16 := by
  rw [permTable_getD b hb]
  omega

theorem permTable_getD_transpose {j i : Nat} (hj : j < 4) (hi : i < 4) :
    permTable.getD (4 * j + i) 0 = 4 * i + j := by
  rw [permTable_getD _ (by omega)]
  omega

theorem permTable_getD_getD {b : Nat} (hb : b < 16) :
    permTable.getD (permTable.getD b 0) 0 = b := by
  rw [permTable_getD _ (permTable_getD_lt hb), permTable_getD b hb]
  omega

/-- The derivation of R131 gives the forward table. -/
theorem invPermTable_eq_permTable : invPermTable = permTable := by decide

/-- Settles O19: the entries by evaluation, the rest by R130's formula and the equality of the two
tables. -/
theorem permutationTables : Obligations.PermutationTables := by
  unfold Obligations.PermutationTables
  rw [invPermTable_eq_permTable]
  exact ⟨rfl, fun _ hj _ hi => permTable_getD_transpose hj hi, fun _ => permTable_getD_getD,
    fun _ => permTable_getD_getD, rfl⟩

/-! ## The state bits that the algorithm moves -/

theorem eq_of_stateBit_eq {v w : Block} (h : ∀ b < 16, stateBit v b = stateBit w b) : v = w := by
  refine BitVec.eq_of_getLsbD_eq fun k hk => ?_
  have hbit := h (15 - k) (by omega)
  rwa [stateBit, stateBit, Nat.sub_sub_self (by omega)] at hbit

theorem stateBit_xor (a b : Block) (sb : Nat) :
    stateBit (a ^^^ b) sb = (stateBit a sb ^^ stateBit b sb) :=
  BitVec.getLsbD_xor

/-- Output state bit `b` is the input state bit that the table names. -/
theorem stateBit_permute (v : Block) {b : Nat} (hb : b < 16) :
    stateBit (permute v) b = stateBit v (permTable.getD b 0) := by
  rw [stateBit, permute_getLsbD v (by omega), Nat.sub_sub_self (by omega), stateBit]

/-- Input state bit `b` goes to the output state bit that the table names (R133). -/
theorem stateBit_permute_permTable (v : Block) {b : Nat} (hb : b < 16) :
    stateBit (permute v) (permTable.getD b 0) = stateBit v b := by
  rw [stateBit_permute v (permTable_getD_lt hb), permTable_getD_getD hb]

/-- R133's transpose of the 4 by 4 bit matrix whose rows are the nibbles. -/
theorem getLsbD_nib_permute (v : Block) {j i : Nat} (hj : j < 4) (hi : i < 4) :
    (nib (permute v) j).getLsbD (3 - i) = (nib v i).getLsbD (3 - j) := by
  rw [← stateBit_eq_getLsbD_nib _ hj hi, stateBit_permute v (by omega),
    permTable_getD_transpose hj hi, stateBit_eq_getLsbD_nib v hi hj]

theorem inversePermute_eq_permute (v : Block) : inversePermute v = permute v := by
  rw [inversePermute, invPermTable_eq_permTable, permute]

/-- Settles O20 from the moved state bits; the word-bit form is the state-bit form by the definition
of `stateBit`. -/
theorem permuteClosedForm : Obligations.PermuteClosedForm :=
  fun v => ⟨fun _ => stateBit_permute_permTable v, fun _ => stateBit_permute_permTable v,
    fun _ hj _ hi => getLsbD_nib_permute v hj hi, inversePermute_eq_permute v⟩

/-! ## The laws of R136 -/

@[simp] theorem permute_permute (v : Block) : permute (permute v) = v := by
  refine eq_of_stateBit_eq fun b hb => ?_
  rw [stateBit_permute _ hb, stateBit_permute_permTable v hb]

/-- Linearity: each output bit is one input bit, and the XOR is taken bit by bit. -/
theorem permute_xor (a b : Block) : permute (a ^^^ b) = permute a ^^^ permute b := by
  refine eq_of_stateBit_eq fun sb hsb => ?_
  rw [stateBit_permute _ hsb, stateBit_xor, stateBit_xor, stateBit_permute a hsb,
    stateBit_permute b hsb]

/-- Settles O21: the inverse permutation is the permutation, which is linear and undoes itself. -/
theorem permutationLaws : Obligations.PermutationLaws := by
  intro a b
  simp only [inversePermute_eq_permute]
  exact ⟨permute_permute a, permute_permute a, permute_xor a b, permute_xor a b, permute_permute a⟩

end Sys2Proof.Machine
end

section
/-! PROOF. The key mixing and the rounds of 42_keymix_round.md, R164 and R166: the mixing as its own
inverse, the command XOR that runs it, and the two rounds as mutual inverses, layer by layer. -/

namespace Sys2Proof.Machine

/-! ## The mixing -/

@[simp] theorem keyMix_self (k : Block) : keyMix k k = 0 := BitVec.xor_self

@[simp] theorem keyMix_keyMix (x k : Block) : keyMix (keyMix x k) k = x := by
  simp only [keyMix, BitVec.xor_assoc, BitVec.xor_self, BitVec.xor_zero]

/-! ## The command -/

theorem exec_xor (rd rs rt : Reg) (s : State) :
    exec (.xor rd rs rt) s = .next (wrote s rd (keyMix (s.readB rs) (s.readB rt))) := rfl

/-- A command whose only effect is to write a block register completes with the value it wrote. -/
theorem completesWith_of_exec_eq_wrote {i : Instr} {s : State} {rd : Reg} {v : Block}
    (h : exec i s = .next (wrote s rd v)) : CompletesWith i s rd v :=
  ⟨wrote s rd v, h, readB_wrote_self s rd v, rfl, rfl⟩

/-- The second XOR reads the same key, since the first wrote another register. -/
theorem xor_xor_blocksKept (s : State) {b k : Reg} (hbk : b ≠ k) :
    ∃ t u, exec (.xor b b k) s = .next t ∧ exec (.xor b b k) t = .next u ∧ BlocksKept s u := by
  refine ⟨_, _, exec_xor b b k s, exec_xor b b k _, ?_⟩
  rw [readB_wrote_self, readB_wrote_of_ne s _ hbk.symm, keyMix_keyMix]
  exact blocksKept_wrote_readB s b _

theorem xor_self_completesWith_zero (s : State) (b k : Reg) : CompletesWith (.xor b k k) s b 0 := by
  have h := exec_xor b k k s
  rw [keyMix_self] at h
  exact completesWith_of_exec_eq_wrote h

/-- Settles O23: mixing the same key twice cancels on values, so in the register that XOR writes. -/
theorem keyMixingIsAnInvolution : Obligations.KeyMixingIsAnInvolution :=
  ⟨keyMix_keyMix, fun s _ _ => xor_xor_blocksKept s, xor_self_completesWith_zero⟩

/-! ## The rounds -/

/-- The inverse permutation, the inverse S-box layer and the second mixing each undo their layer. -/
@[simp] theorem inverseRound_fullRound (S : SBox) (s k : Block) :
    inverseRound S (fullRound S s k) k = s := by
  rw [inverseRound, fullRound, inversePermute_eq_permute, permute_permute,
    inverseSubstitutions_substitutions, keyMix_keyMix]

@[simp] theorem fullRound_inverseRound (S : SBox) (s k : Block) :
    fullRound S (inverseRound S s k) k = s := by
  rw [fullRound, inverseRound, keyMix_keyMix, substitutions_inverseSubstitutions,
    inversePermute_eq_permute, permute_permute]

/-- Settles O24: each layer of one round cancels the matching layer of the other. -/
theorem roundsUndoEachOther : Obligations.RoundsUndoEachOther :=
  fun S s k => ⟨inverseRound_fullRound S s k, fullRound_inverseRound S s k⟩

end Sys2Proof.Machine
end

section
/-! PROOF. The key schedule of 43_key_schedule.md: `gen_keys` as windows of the material (R190), the
schedule the block holds as `gen_keys` (R197), and the cells that no command shows (R196). -/

namespace Sys2Proof.Machine

/-! ## `gen_keys` -/

theorem genKeys_of_lt {M : List Nibble} {rounds : Int} (h : rounds < (M.length : Int) - 2) :
    genKeys M rounds = (List.range rounds.toNat).map (materialWindow M) := if_pos h

theorem genKeys_of_le {M : List Nibble} {rounds : Int} (h : (M.length : Int) - 2 ≤ rounds) :
    genKeys M rounds = [] := if_neg (not_lt.2 h)

@[simp] theorem genKeys_zero (M : List Nibble) : genKeys M 0 = [] := by
  unfold genKeys
  split_ifs <;> rfl

/-- Below the guard of R190 the four nibbles of each window exist, and the key packs them. -/
theorem genKeys_getElem? {M : List Nibble} {rounds : Int} (h : rounds < (M.length : Int) - 2)
    {i : Nat} (hi : i < rounds.toNat) :
    ∃ a b c d, M[i]? = some a ∧ M[i + 1]? = some b ∧ M[i + 2]? = some c ∧ M[i + 3]? = some d ∧
      (genKeys M rounds)[i]? = some (pack a b c d) := by
  have hlen : i + 3 < M.length := by omega
  refine ⟨M[i], M[i + 1], M[i + 2], M[i + 3], List.getElem?_eq_getElem _,
    List.getElem?_eq_getElem _, List.getElem?_eq_getElem _, List.getElem?_eq_getElem _, ?_⟩
  rw [genKeys_of_lt h, List.getElem?_map, List.getElem?_range hi, Option.map_some, materialWindow,
    List.getD_eq_getElem, List.getD_eq_getElem, List.getD_eq_getElem, List.getD_eq_getElem]

/-- Settles O31: the two branches of `gen_keys`; below the guard every window fits. -/
theorem genKeysSlicesWindows : Obligations.GenKeysSlicesWindows := by
  intro M rounds
  refine ⟨fun h => ⟨?_, fun i => genKeys_getElem? h⟩, genKeys_of_le, fun _ => by omega,
    genKeys_zero M⟩
  rw [genKeys_of_lt h, List.length_map, List.length_range]

/-! ## The schedule the block holds -/

@[simp] theorem length_material (s : State) : s.material.length = s.kmLen.toNat := by
  rw [State.material, List.length_map, List.length_range]

theorem material_getD (s : State) {a : Nat} (ha : a < s.kmLen.toNat) :
    s.material.getD a 0 = s.cell a := by
  simp [State.material, ha]

/-- A window below KM_LEN is a window of the material. -/
theorem window_eq_materialWindow (s : State) {i : Nat} (hi : i + 3 < s.kmLen.toNat) :
    s.window i = materialWindow s.material i := by
  rw [State.window, materialWindow, material_getD s (by omega), material_getD s (by omega),
    material_getD s (by omega), material_getD s hi]

/-- By R27 the schedule is empty or all of its windows lie below KM_LEN. -/
theorem keys_eq_genKeys {s : State} (h : ScheduleInv s) :
    s.keys = genKeys s.material s.nk.toNat := by
  obtain hnk | hnk := h
  · simp [State.keys, hnk]
  · rw [genKeys_of_lt (by rw [length_material]; omega), Int.toNat_natCast, State.keys]
    refine List.map_congr_left fun i hi => window_eq_materialWindow s ?_
    have := List.mem_range.1 hi
    omega

/-- KSCHED without error leaves `gen_keys` of `rounds`: NK is `rounds` where the windows fit, and 0
where `gen_keys` is empty (R194). -/
theorem keys_eq_genKeys_of_schedule {strict : Bool} {s t : State} {r : BitVec 8}
    (h : schedule strict r s = .next t) (herr : t.rspErr = 0) :
    t.keys = genKeys t.material r.toNat ∧ t.material = s.material := by
  obtain ⟨hfit, rfl⟩ | ⟨hempty, rfl⟩ | ⟨-, -, -, rfl⟩ := schedule_next h
  · exact ⟨keys_eq_genKeys (s := scheduled s r) (.inr hfit), rfl⟩
  · refine ⟨Eq.symm ?_, rfl⟩
    change genKeys s.material r.toNat = []
    obtain rfl | ⟨hshort, -⟩ := hempty
    · exact genKeys_zero _
    · exact genKeys_of_le (by rw [length_material]; omega)
  · exact absurd herr (ErrorCode.code_ne_zero .insufficientKeyMaterial)

/-- Settles O33: a good state's windows lie in the material, and KSCHED keeps `gen_keys`'s guard. -/
theorem scheduleIsGenKeys : Obligations.ScheduleIsGenKeys :=
  ⟨fun _ hs => keys_eq_genKeys hs.schedule, fun _ _ _ _ => keys_eq_genKeys_of_schedule⟩

/-! ## The hidden cells: what two states that agree below KM_LEN both show -/

section Agreement
variable {s u : State}

namespace AgreeBelowLength

theorem readB_eq : AgreeBelowLength s u → ∀ r, u.readB r = s.readB r
  | ⟨hb, _⟩, r => congrArg (BlockRegs.get · r) hb

theorem kmLen_eq : AgreeBelowLength s u → u.kmLen = s.kmLen
  | ⟨_, hl, _⟩ => hl

theorem nk_eq : AgreeBelowLength s u → u.nk = s.nk
  | ⟨_, _, hn, _⟩ => hn

theorem status_eq : AgreeBelowLength s u → u.status = s.status
  | ⟨_, _, _, hst, _⟩ => hst

theorem scheduleWord_eq (h : AgreeBelowLength s u) : u.scheduleWord = s.scheduleWord := by
  rw [State.scheduleWord, State.scheduleWord, h.nk_eq, h.kmLen_eq]

theorem material_eq (h : AgreeBelowLength s u) : u.material = s.material := by
  obtain ⟨-, hl, -, -, -, -, hc⟩ := h
  exact material_congr hl hc

theorem window_eq (h : AgreeBelowLength s u) {i : Nat} (hi : i + 3 < s.kmLen.toNat) :
    u.window i = s.window i := by
  rw [window_eq_materialWindow u (by rwa [h.kmLen_eq]), window_eq_materialWindow s hi,
    h.material_eq]

/-- Both schedules are `gen_keys` of the one material (R197). -/
theorem keys_eq (h : AgreeBelowLength s u) (hs : ScheduleInv s) : u.keys = s.keys := by
  have hu : ScheduleInv u := by rwa [ScheduleInv, h.nk_eq, h.kmLen_eq]
  rw [keys_eq_genKeys hu, keys_eq_genKeys hs, h.material_eq, h.nk_eq]

end AgreeBelowLength

/-! ## The hidden cells: completion -/

/-- Where the first outcome is a next state, so is the second, and the two agree below KM_LEN. -/
def AgreeAfter (r q : Result) : Prop :=
  ∀ t, r = .next t → ∃ v, q = .next v ∧ AgreeBelowLength t v

theorem agreeAfter_next {t v : State} (h : AgreeBelowLength t v) :
    AgreeAfter (.next t) (.next v) := by
  rintro _ ⟨⟩
  exact ⟨v, rfl, h⟩

theorem agreeAfter_fault (f : Fault) (q : Result) : AgreeAfter (.fault f) q := nofun

namespace AgreeBelowLength

theorem agreeAfter_respond (h : AgreeBelowLength s u) {v w : BitVec 16} (hv : w = v) :
    AgreeAfter (s.respond v) (u.respond w) := by
  obtain ⟨hb, hl, hn, hst, -, -, hc⟩ := h
  exact agreeAfter_next ⟨hb, hl, hn, hst, rfl, hv, hc⟩

theorem agreeAfter_raise (h : AgreeBelowLength s u) (e : ErrorCode) :
    AgreeAfter (s.raise e) (u.raise e) := by
  obtain ⟨hb, hl, hn, hst, -, -, hc⟩ := h
  exact agreeAfter_next ⟨hb, hl, hn, congrArg (·.record e) hst, rfl, rfl, hc⟩

theorem agreeAfter_writeBack (h : AgreeBelowLength s u) (rd : Reg) {v w : Block} (hv : w = v) :
    AgreeAfter (s.writeBack rd v) (u.writeBack rd w) := by
  subst hv
  obtain ⟨hb, hl, hn, hst, -, -, hc⟩ := h
  exact agreeAfter_next ⟨congrArg (·.set rd w) hb, hl, hn, hst, rfl, rfl, hc⟩

theorem agreeAfter_check (h : AgreeBelowLength s u) {α : Type} {r q : Except ErrorCode α}
    {k l : α → Result} (hr : q = r) (hk : ∀ a, AgreeAfter (k a) (l a)) :
    AgreeAfter (s.check r k) (u.check q l) := by
  subst hr
  cases q with
  | ok a => exact hk a
  | error e => exact h.agreeAfter_raise e

/-! ## The hidden cells: the commands that read or write the key material -/

theorem agreeAfter_kmclr (h : AgreeBelowLength s u) : AgreeAfter (execKmclr s) (execKmclr u) := by
  obtain ⟨hb, -, -, hst, -, -, -⟩ := h
  exact agreeAfter_next ⟨hb, rfl, rfl, hst, rfl, rfl, fun _ ha => absurd ha (Nat.not_lt_zero _)⟩

/-- KMPUSH overwrites the one hidden cell that it brings below KM_LEN. -/
theorem pushed_pushed (h : AgreeBelowLength s u) (n : Nibble) :
    AgreeBelowLength (pushed s n) (pushed u n) := by
  obtain ⟨hb, hl, hn, hst, -, -, hc⟩ := h
  refine ⟨hb, congrArg (· + 1) hl, hn, hst, rfl, congrArg (fun l => (l + 1).setWidth 16) hl, ?_⟩
  intro a ha
  rw [cell_pushed, cell_pushed, hl]
  split_ifs with heq
  · rfl
  · have hle : (pushed s n).kmLen.toNat ≤ s.kmLen.toNat + 1 := by
      rw [pushed, BitVec.toNat_add]
      exact Nat.mod_le _ _
    exact hc a (by omega)

theorem agreeAfter_kmpush (h : AgreeBelowLength s u) (v : BitVec 8) :
    AgreeAfter (execKmpush v s) (execKmpush v u) := by
  refine h.agreeAfter_check rfl fun n => ?_
  rw [h.kmLen_eq]
  split_ifs
  · exact h.agreeAfter_raise _
  · have hp := h.pushed_pushed n
    rw [pushed, pushed, h.kmLen_eq] at hp
    exact agreeAfter_next hp
  · exact agreeAfter_fault _ _

theorem agreeAfter_ksched (h : AgreeBelowLength s u) (r : BitVec 8) :
    AgreeAfter (execKsched r s) (execKsched r u) := by
  refine h.agreeAfter_check (by rw [h.kmLen_eq]) fun n => ?_
  obtain ⟨hb, hl, -, hst, -, -, hc⟩ := h
  exact agreeAfter_next ⟨hb, hl, rfl, hst, rfl, rfl, hc⟩

/-- A window below NK lies below KM_LEN (10_state.md R27). -/
theorem agreeAfter_kwin (h : AgreeBelowLength s u) (hs : ScheduleInv s) (rd : Reg) (i : BitVec 8) :
    AgreeAfter (execKwin rd i s) (execKwin rd i u) := by
  rw [execKwin, execKwin, h.nk_eq]
  split_ifs with hnk
  · exact h.agreeAfter_raise _
  · obtain h0 | hfit := hs
    · simp [h0] at hnk
    · exact h.agreeAfter_writeBack rd (h.window_eq (by omega))
  · exact agreeAfter_fault _ _

theorem agreeAfter_runDriver (h : AgreeBelowLength s u) (hs : ScheduleInv s)
    (f : Block → List Block → Except ErrorCode Block) (rd rs : Reg) :
    AgreeAfter (runDriver f rd rs s) (runDriver f rd rs u) := by
  rw [runDriver, runDriver, h.nk_eq]
  split_ifs
  · exact h.agreeAfter_raise _
  · exact h.agreeAfter_check (by rw [h.readB_eq, h.keys_eq hs]) fun _ =>
      h.agreeAfter_writeBack rd rfl
  · exact agreeAfter_fault _ _

/-! ## The hidden cells: every command -/

theorem agreeAfter_exec (h : AgreeBelowLength s u) (hs : ScheduleInv s) (i : Instr) :
    AgreeAfter (exec i s) (exec i u) := by
  cases i with
  | ldi rd v => exact h.agreeAfter_writeBack rd rfl
  | mov rd rs => exact h.agreeAfter_writeBack rd (h.readB_eq rs)
  | rd rs => exact h.agreeAfter_respond (h.readB_eq rs)
  | sub rd rs => exact h.agreeAfter_writeBack rd (by rw [h.readB_eq])
  | isub rd rs => exact h.agreeAfter_writeBack rd (by rw [h.readB_eq])
  | sbx rd v => exact h.agreeAfter_check rfl fun _ => h.agreeAfter_writeBack rd rfl
  | isbx rd v => exact h.agreeAfter_check rfl fun _ => h.agreeAfter_writeBack rd rfl
  | perm rd rs => exact h.agreeAfter_writeBack rd (by rw [h.readB_eq])
  | iperm rd rs => exact h.agreeAfter_writeBack rd (by rw [h.readB_eq])
  | xor rd rs rt => exact h.agreeAfter_writeBack rd (by rw [h.readB_eq, h.readB_eq])
  | round rd rs rt => exact h.agreeAfter_writeBack rd (by rw [h.readB_eq, h.readB_eq])
  | iround rd rs rt => exact h.agreeAfter_writeBack rd (by rw [h.readB_eq, h.readB_eq])
  | kmclr => exact h.agreeAfter_kmclr
  | kmpush v => exact h.agreeAfter_kmpush v
  | ksched r => exact h.agreeAfter_ksched r
  | kwin rd v => exact h.agreeAfter_kwin hs rd v
  | enc rd rs => exact h.agreeAfter_runDriver hs _ rd rs
  | dec rd rs => exact h.agreeAfter_runDriver hs _ rd rs
  | decs rd rs => exact h.agreeAfter_runDriver hs _ rd rs
  | stat => exact h.agreeAfter_respond (by rw [h.status_eq])
  | clrst =>
    obtain ⟨hb, hl, hn, -, -, -, hc⟩ := h
    exact agreeAfter_next ⟨hb, hl, hn, rfl, rfl, rfl, hc⟩
  | rdks => exact h.agreeAfter_respond h.scheduleWord_eq

end AgreeBelowLength

end Agreement

/-- Settles O51: in a good state the commands read no cell at KM_LEN or above, and KMPUSH writes the
one that it brings below KM_LEN. -/
theorem hiddenCellsNeverReachAnything : Obligations.HiddenCellsNeverReachAnything :=
  fun i _ _ t hs hu ht => hu.agreeAfter_exec hs.schedule i t ht

end Sys2Proof.Machine
end

section
/-! PROOF. The cipher driver of 44_cipher_driver.md: encryption as full rounds whose last
permutation is undone before the whitening, both decryptions as inverse rounds over the reversed
keys (R226, R227), and the key counts (R221, R232). -/

namespace Sys2Proof.Machine

/-! ## The structure of R220 -/

theorem cipherStructure_of_length_lt (f g : Block → Block) (v : Block) {ks : List Block}
    (h : ks.length < 2) : cipherStructure f g v ks = .error .invalidKeyCount := if_pos h

/-- With two keys no full round runs. -/
theorem cipherStructure_pair (f g : Block → Block) (v k0 k1 : Block) :
    cipherStructure f g v [k0, k1] = .ok (keyMix (f (keyMix v k0)) k1) := rfl

/-- A key with two more behind it takes a full round. -/
theorem cipherStructure_cons (f g : Block → Block) (v k : Block) {ks : List Block}
    (h : 2 ≤ ks.length) :
    cipherStructure f g v (k :: ks) = cipherStructure f g (g (f (keyMix v k))) ks := by
  match ks, h with
  | k1 :: k2 :: ks, _ => simp [cipherStructure]

/-- Settles O38: the two equations of the structure, for encryption. -/
theorem encryptRoundByRound : Obligations.EncryptRoundByRound :=
  fun _ _ _ _ _ _ => ⟨cipherStructure_pair .., cipherStructure_cons _ _ _ _ (by simp)⟩

/-! ## Encryption -/

theorem permute_fullRound (S : SBox) (s k : Block) :
    permute (fullRound S s k) = substitutions S (keyMix s k) := permute_permute _

/-- Encryption is a full round for every key but the last, with the last round's permutation undone
before the whitening. -/
theorem encrypt_cons_append (S : SBox) (p k0 : Block) (ks : List Block) (k : Block) :
    encrypt S p (k0 :: (ks ++ [k])) =
      .ok (keyMix (permute ((k0 :: ks).foldl (fullRound S) p)) k) := by
  induction ks generalizing p k0 with
  | nil => rw [List.foldl_cons, List.foldl_nil, permute_fullRound]; rfl
  | cons k1 ks ih => exact (cipherStructure_cons _ _ _ _ (by simp)).trans (ih _ k1)

/-! ## The key-reversal decryption -/

/-- An inverse round of a permuted value undoes a partial round, one without its permutation. -/
theorem inverseRound_permute (S : SBox) (s k : Block) :
    inverseRound S (permute s) k = keyMix (inverseSubstitutions S s) k := by
  rw [inverseRound, inversePermute_eq_permute, permute_permute]

/-- Decryption takes the whitening off, puts the last round's permutation back, and undoes a full
round for every key but the last. -/
theorem decrypt_cons_append (S : SBox) (c k0 : Block) (ks : List Block) (k : Block) :
    decrypt S c (k0 :: (ks ++ [k])) =
      .ok ((ks.reverse ++ [k0]).foldl (inverseRound S) (permute (keyMix c k))) := by
  obtain ⟨r1, rest, hr⟩ : ∃ r1 rest, ks.reverse ++ [k0] = r1 :: rest :=
    List.exists_cons_of_ne_nil (by simp)
  have hrev : (k0 :: (ks ++ [k])).reverse = k :: r1 :: rest := by simp [← hr]
  rw [decrypt, hrev, hr, List.foldl_cons, inverseRound_permute]

theorem foldl_inverseRound_reverse_foldl_fullRound (S : SBox) (ks : List Block) (p : Block) :
    ks.reverse.foldl (inverseRound S) (ks.foldl (fullRound S) p) = p := by
  induction ks generalizing p with
  | nil => rfl
  | cons k ks ih =>
    rw [List.reverse_cons, List.foldl_append, List.foldl_cons (l := ks), ih, List.foldl_cons,
      List.foldl_nil, inverseRound_fullRound]

/-! ## The decryption of R224 -/

/-- The interior keys go through the inverse permutation, and the ends change places. -/
theorem transform_cons_append (k0 : Block) (ks : List Block) (k : Block) :
    transform (k0 :: (ks ++ [k])) = k :: (ks.reverse.map inversePermute ++ [k0]) := by
  have hmid : ks.mapIdx (fun i k => if i < ks.length then inversePermute k else k) =
      ks.map inversePermute := by
    refine List.ext_getElem (by simp) fun i _ hi => ?_
    rw [List.length_map] at hi
    rw [List.getElem_mapIdx, if_pos hi, List.getElem_map]
  simp [transform, List.mapIdx_cons, List.mapIdx_append, hmid]

/-- The permutation moves past the key mixing when the key goes through its inverse. -/
theorem permute_keyMix_inversePermute (x k : Block) :
    permute (keyMix (inversePermute x) (inversePermute k)) = keyMix x k := by
  simp only [keyMix, inversePermute_eq_permute, permute_xor, permute_permute]

/-- The interior keys, moved past the inverse permutation, make each round of R225 a step of the
same chain of inverse rounds that the key-reversal decryption runs. -/
theorem encryptInv_cons_append (S : SBox) (c k : Block) (rs : List Block) (k0 : Block) :
    encryptInv S c (k :: (rs.map inversePermute ++ [k0])) =
      .ok ((rs ++ [k0]).foldl (inverseRound S) (permute (keyMix c k))) := by
  induction rs generalizing c k with
  | nil => rw [List.nil_append, List.foldl_cons, inverseRound_permute]; rfl
  | cons r rs ih =>
    refine (cipherStructure_cons _ _ _ _ (by simp)).trans ((ih _ _).trans ?_)
    rw [permute_keyMix_inversePermute, List.cons_append, List.foldl_cons, inverseRound_permute]

/-! ## R226 and R227 -/

theorem exists_eq_cons_append {ks : List Block} (h : 2 ≤ ks.length) :
    ∃ k0 mid k, ks = k0 :: (mid ++ [k]) := by
  match ks, h with
  | k0 :: k1 :: ks, _ =>
    exact ⟨k0, _, _, congrArg _ (List.dropLast_concat_getLast (List.cons_ne_nil k1 ks)).symm⟩

/-- Settles O40: each decryption is the same chain of inverse rounds over the reversed keys. -/
theorem decryptionsAreOneFunction : Obligations.DecryptionsAreOneFunction := by
  intro S c ks h
  obtain ⟨k0, mid, k, rfl⟩ := exists_eq_cons_append h
  rw [decrypt_cons_append, decryptSimple, transform_cons_append, encryptInv_cons_append]

/-- Settles O39: the inverse rounds undo encryption's full rounds one by one, and the second
decryption is the first. -/
theorem decryptionsUndoEncryption : Obligations.DecryptionsUndoEncryption := by
  intro S p ks h
  obtain ⟨c, hc, hd⟩ : ∃ c, encrypt S p ks = .ok c ∧ decrypt S c ks = .ok p := by
    obtain ⟨k0, mid, k, rfl⟩ := exists_eq_cons_append h
    refine ⟨_, encrypt_cons_append S p k0 mid k, ?_⟩
    rw [decrypt_cons_append, keyMix_keyMix, permute_permute, ← List.reverse_cons,
      foldl_inverseRound_reverse_foldl_fullRound]
  exact ⟨c, hc, hd, (decryptionsAreOneFunction S c ks h) ▸ hd⟩

/-! ## R221 and R232 -/

theorem decrypt_of_length_lt (S : SBox) (c : Block) {ks : List Block} (h : ks.length < 2) :
    decrypt S c ks = .error .invalidKeyCount := by
  match ks, h with
  | [], _ => rfl
  | [_], _ => rfl

/-- Settles O37: the structure and the reversal both look at the key count, which `transform`
keeps. -/
theorem cipherFunctionsNeedTwoKeys : Obligations.CipherFunctionsNeedTwoKeys := by
  intro S v ks
  have hlen := length_transform ks
  exact ⟨fun h => ⟨cipherStructure_of_length_lt _ _ v h, decrypt_of_length_lt S v h,
      cipherStructure_of_length_lt _ _ v (hlen.trans_lt h)⟩,
    fun h => ⟨cipherStructure_ok _ _ v h, decrypt_ok S v h,
      cipherStructure_ok _ _ v (h.trans_eq hlen.symm)⟩⟩

/-- Two windows need five nibbles, and without them NK is not 2 under either policy. -/
theorem scheduleLength_two_eq_ok_two_iff (strict : Bool) (len : BitVec 8) :
    scheduleLength strict 2 len = .ok 2 ↔ 5 ≤ len.toNat := by
  obtain ⟨-, h, hc⟩ | ⟨h, hc⟩ | ⟨-, h, -, hc⟩ := scheduleLength_cases strict 2 len
  · exact iff_of_true hc h
  · obtain h2 | ⟨h, -⟩ := h
    · cases h2
    · exact iff_of_false (by rw [hc]; decide) (not_le.2 h)
  · exact iff_of_false (by rw [hc]; nofun) (not_le.2 h)

/-- Settles O41: the formulas are the structure's equation for two keys, which `transform`
exchanges; the two inversions are those of R226. -/
theorem twoKeyCipher : Obligations.TwoKeyCipher := by
  refine ⟨fun S v k0 k1 => ?_, scheduleLength_two_eq_ok_two_iff⟩
  have henc : encrypt S v [k0, k1] = .ok (substitutions S (v ^^^ k0) ^^^ k1) :=
    cipherStructure_pair ..
  obtain ⟨c, hc, hdec, hsimple⟩ := decryptionsUndoEncryption S v [k0, k1] le_rfl
  obtain rfl : substitutions S (v ^^^ k0) ^^^ k1 = c := Except.ok.inj (henc.symm.trans hc)
  exact ⟨henc, rfl, rfl, cipherStructure_pair .., hdec, hsimple⟩

end Sys2Proof.Machine
end

section
/-! PROOF. The legal words of 30_encoding.md R72 as the words that decode: the masked comparison of
R72 is the opcode's and the reserved bits', which the decoder tests one after the other. -/

namespace Sys2Proof

theorem Format.mask_ushiftRight (f : Format) : f.mask >>> 24 = 0xFF := by cases f <;> rfl

/-- Every format's mask covers the whole opcode. -/
theorem toNat_and_mask_div (w : Word) (f : Format) :
    (w &&& f.mask).toNat / 2 ^ 24 = (opField w).toNat := by
  have hop : (w >>> 24).toNat < 2 ^ 8 := toNat_opField w ▸ (opField w).isLt
  have hshift : (w &&& f.mask) >>> 24 = w >>> 24 &&& 0xFF := by
    rw [BitVec.ushiftRight_and_distrib, f.mask_ushiftRight]
  calc (w &&& f.mask).toNat / 2 ^ 24
      = ((w &&& f.mask) >>> 24).toNat := by
        rw [BitVec.toNat_ushiftRight, Nat.shiftRight_eq_div_pow]
    _ = (w >>> 24).toNat &&& (2 ^ 8 - 1) := by rw [hshift, BitVec.toNat_and]; rfl
    _ = (opField w).toNat := by
        rw [Nat.and_two_pow_sub_one_eq_mod, Nat.mod_eq_of_lt hop, toNat_opField]

theorem Format.reservedClear_iff_mod (f : Format) (w : Word) :
    f.reservedClear w = true ↔ (w &&& f.mask).toNat % 2 ^ 24 = 0 := by
  rw [f.reservedClear_iff, ← Nat.and_two_pow_sub_one_eq_mod, ← BitVec.toNat_inj, BitVec.toNat_and]
  rfl

theorem OpRow.toNat_matchWord (r : OpRow) : r.matchWord.toNat = r.op.toNat * 2 ^ 24 := by
  have := r.op.isLt
  rw [matchWord, BitVec.toNat_shiftLeft, BitVec.toNat_setWidth, Nat.shiftLeft_eq]
  omega

/-- The comparison of R72 splits at bit 24 into the opcode and the reserved bits. -/
theorem OpRow.and_mask_eq_matchWord_iff (r : OpRow) (w : Word) :
    w &&& r.format.mask = r.matchWord ↔
      (opField w).toNat = r.op.toNat ∧ r.format.reservedClear w = true := by
  rw [← toNat_and_mask_div w r.format, Format.reservedClear_iff_mod, ← BitVec.toNat_inj,
    r.toNat_matchWord]
  omega

theorem legalWord_iff_exists_row (w : Word) :
    legalWord w = true ↔
      ∃ r ∈ opcodeMap, (opField w).toNat = r.op.toNat ∧ r.format.reservedClear w = true := by
  simp only [legalWord, List.any_eq_true, beq_iff_eq, OpRow.and_mask_eq_matchWord_iff]

theorem exists_decode_of_legalWord {w : Word} (h : legalWord w = true) :
    ∃ i, decode w = .ok i := by
  obtain ⟨r, hr, hop, hclear⟩ := (legalWord_iff_exists_row w).1 h
  obtain ⟨i, hi⟩ := decode_of_mapped hr hop
  exact ⟨i, by rw [hi, hclear]; rfl⟩

/-- An illegal word has an opcode outside the map, or a reserved bit set (R77, R78). -/
theorem exists_decode_error_of_not_legalWord {w : Word} (h : legalWord w = false) :
    ∃ e, decode w = .error e := by
  by_cases hmap : ∃ r ∈ opcodeMap, (opField w).toNat = r.op.toNat
  · obtain ⟨r, hr, hop⟩ := hmap
    obtain ⟨i, hi⟩ := decode_of_mapped hr hop
    have hset : r.format.reservedClear w = false := by
      refine Bool.eq_false_iff.2 fun hclear => ?_
      exact Bool.eq_false_iff.1 h ((legalWord_iff_exists_row w).2 ⟨r, hr, hop, hclear⟩)
    exact ⟨.reservedBits, by rw [hi, hset]; rfl⟩
  · exact ⟨.unassignedOpcode, decode_of_unmapped fun r hr hop => hmap ⟨r, hr, hop⟩⟩

theorem legalWord_eq_false_of_decode_error {w : Word} {e : DecodeError}
    (h : decode w = .error e) : legalWord w = false := by
  refine Bool.eq_false_iff.2 fun hlegal => ?_
  obtain ⟨i, hi⟩ := exists_decode_of_legalWord hlegal
  rw [hi] at h
  cases h

end Sys2Proof
end

section
/-! PROOF. The errors of 60_exceptions.md: the causes of R301 word by word, each raising its own code
and nothing else raising one, the driver's key count (R305), and the record of R302. -/

namespace Sys2Proof.Machine

/-! ## The checks that raise -/

theorem check_candidateNibble_raises (s : State) {v : BitVec 8} (hv : 16 ≤ v.toNat)
    (k : Nibble → Result) : s.check (candidateNibble v) k = .next (raised s .outOfRange) := by
  rw [candidateNibble_error hv]
  rfl

theorem runDriver_raises (f : Block → List Block → Except ErrorCode Block) (rd rs : Reg)
    {s : State} (h : s.nk.toNat < 2) :
    runDriver f rd rs s = .next (raised s .invalidKeyCount) := if_pos h

theorem schedule_raises {strict : Bool} {r : BitVec 8} {s : State} (hstrict : strict = true)
    (hr : 1 ≤ r.toNat) (hl : s.kmLen.toNat < r.toNat + 3) :
    schedule strict r s = .next (raised s .insufficientKeyMaterial) := by
  subst hstrict
  obtain ⟨-, hfit, -⟩ | ⟨rfl | ⟨-, hlax⟩, -⟩ | ⟨-, -, -, hc⟩ :=
    scheduleLength_cases true r s.kmLen
  · omega
  · cases hr
  · cases hlax
  · rw [schedule, hc]
    rfl

theorem execKwin_raises (rd : Reg) {v : BitVec 8} {s : State} (h : s.nk.toNat ≤ v.toNat) :
    execKwin rd v s = .next (raised s .keyIndex) := if_pos h

theorem pushNibble_raises_of_full {depth : Nat} {v : BitVec 8} {s : State} (hv : v.toNat ≤ 15)
    (hl : s.kmLen.toNat = depth) :
    pushNibble depth v s = .next (raised s .keyMaterialFull) := by
  rw [pushNibble, candidateNibble_ok hv]
  exact if_pos hl

/-- Settles O43: the three commands are one driver, which looks at NK first. -/
theorem driverCommandsNeedTwoKeys : Obligations.DriverCommandsNeedTwoKeys := by
  intro s rd rs h
  have hraised : RaisedOnly s 2 (raised s .invalidKeyCount) := raisedOnly_raised s .invalidKeyCount
  exact ⟨⟨_, runDriver_raises _ rd rs h, hraised⟩, ⟨_, runDriver_raises _ rd rs h, hraised⟩,
    ⟨_, runDriver_raises _ rd rs h, hraised⟩⟩

/-! ## The causes of R301 -/

/-- The cause of an error at a word and a state, one row of R301 each. -/
def Cause (w : Word) (s : State) : ErrorCode → Prop
  | .outOfRange => ∃ d v, 16 ≤ BitVec.toNat v ∧
      (decode w = .ok (.sbx d v) ∨ decode w = .ok (.isbx d v) ∨ decode w = .ok (.kmpush v))
  | .invalidKeyCount => s.nk.toNat < 2 ∧ ∃ d r,
      decode w = .ok (.enc d r) ∨ decode w = .ok (.dec d r) ∨ decode w = .ok (.decs d r)
  | .insufficientKeyMaterial => Config.chip.ksStrict = true ∧ ∃ r, decode w = .ok (.ksched r) ∧
      1 ≤ r.toNat ∧ s.kmLen.toNat < r.toNat + 3
  | .lengthMismatch => False
  | .illegalCommand => legalWord w = false
  | .keyIndex => ∃ d v, decode w = .ok (.kwin d v) ∧ s.nk.toNat ≤ BitVec.toNat v
  | .keyMaterialFull => s.kmLen.toNat = Config.chip.kmDepth ∧
      ∃ v, decode w = .ok (.kmpush v) ∧ BitVec.toNat v ≤ 15

theorem executeWord_of_decode {w : Word} {i : Instr} (h : decode w = .ok i) (s : State) :
    executeWord w s = exec i s := by rw [executeWord, h]

/-- Each cause raises its error. -/
theorem executeWord_of_cause {w : Word} {s : State} {e : ErrorCode} (h : Cause w s e) :
    executeWord w s = .next (raised s e) := by
  cases e with
  | outOfRange =>
    obtain ⟨d, v, hv, hw | hw | hw⟩ := h <;>
      exact (executeWord_of_decode hw s).trans (check_candidateNibble_raises s hv _)
  | invalidKeyCount =>
    obtain ⟨hnk, d, r, hw | hw | hw⟩ := h <;>
      exact (executeWord_of_decode hw s).trans (runDriver_raises _ d r hnk)
  | insufficientKeyMaterial =>
    obtain ⟨hstrict, r, hw, hr, hl⟩ := h
    exact (executeWord_of_decode hw s).trans (schedule_raises hstrict hr hl)
  | lengthMismatch => exact h.elim
  | illegalCommand =>
    obtain ⟨e, he⟩ := exists_decode_error_of_not_legalWord h
    rw [executeWord, he]
    rfl
  | keyIndex =>
    obtain ⟨d, v, hw, hnk⟩ := h
    exact (executeWord_of_decode hw s).trans (execKwin_raises d hnk)
  | keyMaterialFull =>
    obtain ⟨hl, v, hw, hv⟩ := h
    exact (executeWord_of_decode hw s).trans (pushNibble_raises_of_full hv hl)

/-- The state is that of a completion without error, or of one whose error had its cause. -/
def SucceedsOrCaused (w : Word) (s t : State) : Prop :=
  t.rspErr = 0 ∨ ∃ e, Cause w s e ∧ t = raised s e

section
variable {w : Word} {s t : State}

theorem succeedsOrCaused_of_check_candidateNibble {v : BitVec 8} {rd : Reg} {f : Nibble → Block}
    (hcause : 16 ≤ v.toNat → Cause w s .outOfRange)
    (h : s.check (candidateNibble v) (fun n => s.writeBack rd (f n)) = .next t) :
    SucceedsOrCaused w s t := by
  obtain ⟨-, hc⟩ | ⟨hv, -⟩ := candidateNibble_cases v
  · rw [hc] at h
    rw [State.writeBack_next.1 h]
    exact .inl rfl
  · rw [check_candidateNibble_raises s hv] at h
    cases h
    exact .inr ⟨_, hcause hv, rfl⟩

theorem succeedsOrCaused_of_runDriver {f : Block → List Block → Except ErrorCode Block}
    {rd rs : Reg} (hf : ∀ v ks, 2 ≤ ks.length → ∃ r, f v ks = .ok r)
    (hcause : s.nk.toNat < 2 → Cause w s .invalidKeyCount) (h : runDriver f rd rs s = .next t) :
    SucceedsOrCaused w s t := by
  obtain ⟨hnk, rfl⟩ | ⟨-, _, -, rfl⟩ := runDriver_next hf h
  · exact .inr ⟨_, hcause hnk, rfl⟩
  · exact .inl rfl

/-- A command raises only where R301 gives it a cause; the commands of the last group have no check. -/
theorem succeedsOrCaused_of_exec {i : Instr} (hw : decode w = .ok i) (h : exec i s = .next t) :
    SucceedsOrCaused w s t := by
  cases i with
  | sbx d v =>
    exact succeedsOrCaused_of_check_candidateNibble (fun hv => ⟨d, v, hv, .inl hw⟩) h
  | isbx d v =>
    exact succeedsOrCaused_of_check_candidateNibble (fun hv => ⟨d, v, hv, .inr (.inl hw)⟩) h
  | kmpush v =>
    obtain ⟨hv, rfl⟩ | ⟨hv, hl, rfl⟩ | ⟨-, -, rfl⟩ := pushNibble_next h
    · exact .inr ⟨.outOfRange, ⟨.b0, v, hv, .inr (.inr hw)⟩, rfl⟩
    · exact .inr ⟨.keyMaterialFull, ⟨hl, v, hw, hv⟩, rfl⟩
    · exact .inl rfl
  | ksched r =>
    obtain ⟨-, rfl⟩ | ⟨-, rfl⟩ | ⟨hr, hl, hstrict, rfl⟩ := schedule_next h
    · exact .inl rfl
    · exact .inl rfl
    · have hpos : 1 ≤ r.toNat := Nat.pos_of_ne_zero (BitVec.toNat_ne_iff_ne.2 hr)
      exact .inr ⟨.insufficientKeyMaterial, ⟨hstrict, r, hw, hpos, hl⟩, rfl⟩
  | kwin d v =>
    obtain ⟨hnk, rfl⟩ | ⟨-, rfl⟩ := execKwin_next h
    · exact .inr ⟨.keyIndex, ⟨d, v, hw, hnk⟩, rfl⟩
    · exact .inl rfl
  | enc d r =>
    exact succeedsOrCaused_of_runDriver (fun v _ => cipherStructure_ok _ _ v)
      (fun hnk => ⟨hnk, d, r, .inl hw⟩) h
  | dec d r =>
    exact succeedsOrCaused_of_runDriver (fun v _ => decrypt_ok _ v)
      (fun hnk => ⟨hnk, d, r, .inr (.inl hw)⟩) h
  | decs d r =>
    exact succeedsOrCaused_of_runDriver
      (fun v ks hk => cipherStructure_ok _ _ v (hk.trans_eq (length_transform ks).symm))
      (fun hnk => ⟨hnk, d, r, .inr (.inr hw)⟩) h
  | ldi | mov | rd | sub | isub | perm | iperm | xor | round | iround | kmclr | stat | clrst | rdks =>
    cases h
    exact .inl rfl

theorem succeedsOrCaused_of_executeWord (h : executeWord w s = .next t) :
    SucceedsOrCaused w s t := by
  obtain ⟨i, hw, hi⟩ | ⟨e, hw, rfl⟩ := executeWord_next h
  · exact succeedsOrCaused_of_exec hw hi
  · exact .inr ⟨.illegalCommand, legalWord_eq_false_of_decode_error hw, rfl⟩

/-- The response carries an error's code exactly where the error has its cause. -/
theorem rspErr_eq_code_iff_cause (h : executeWord w s = .next t) (e : ErrorCode) :
    t.rspErr = e.code ↔ Cause w s e := by
  constructor
  · intro herr
    obtain h0 | ⟨f, hf, rfl⟩ := succeedsOrCaused_of_executeWord h
    · exact absurd (herr.symm.trans h0) e.code_ne_zero
    · rwa [← ErrorCode.code_injective (e := f) herr]
  · intro hc
    rw [executeWord_of_cause hc] at h
    cases h
    rfl

theorem rspErr_toNat_lt (h : executeWord w s = .next t) : t.rspErr.toNat < 8 := by
  obtain h0 | ⟨e, -, rfl⟩ := succeedsOrCaused_of_executeWord h
  · rw [h0]; decide
  · change e.code.toNat < 8
    cases e <;> decide

end

/-- Settles O48: the codes are those of the seven errors, each with its cause; that of code 4 never
holds. -/
theorem everyErrorHasItsCause : Obligations.EveryErrorHasItsCause := by
  intro w s t h
  have hiff := rspErr_eq_code_iff_cause h
  exact ⟨hiff .outOfRange, hiff .invalidKeyCount, hiff .insufficientKeyMaterial,
    (hiff .lengthMismatch).1, hiff .illegalCommand, hiff .keyIndex, hiff .keyMaterialFull,
    rspErr_toNat_lt h⟩

/-! ## The record of R302 -/

/-- STATUS follows the record rule of R302: an error is written where none is recorded, and nothing
else is. -/
def RecordsFirstError (s t : State) : Prop :=
  t.status = if t.rspErr ≠ 0 ∧ s.status.sticky = false then ⟨true, t.rspErr⟩ else s.status

theorem recordsFirstError_raised (s : State) (e : ErrorCode) : RecordsFirstError s (raised s e) := by
  have hne : (raised s e).rspErr ≠ 0 := e.code_ne_zero
  cases hs : s.status.sticky with
  | false =>
    rw [RecordsFirstError, if_pos ⟨hne, hs⟩]
    exact if_neg (by simp [hs])
  | true =>
    rw [RecordsFirstError, if_neg (by simp [hs])]
    exact if_pos hs

theorem recordsFirstError_of_rspErr_eq_zero {s t : State} (herr : t.rspErr = 0)
    (hst : t.status = s.status) : RecordsFirstError s t := by
  rw [RecordsFirstError, if_neg fun h => h.1 herr, hst]

theorem Effect.recordsFirstError {i : Instr} {s t : State} (h : Effect i s t) (hi : i ≠ .clrst) :
    RecordsFirstError s t := by
  cases h with
  | raise e => exact recordsFirstError_raised s e
  | clearStatus h => exact absurd h hi
  | write | answer | clearKeys | push | schedule =>
    exact recordsFirstError_of_rspErr_eq_zero rfl rfl

/-- Settles O47: a raise records where nothing is recorded, and of the commands without error CLRST
alone writes STATUS. -/
theorem statusKeepsTheFirstError : Obligations.StatusKeepsTheFirstError := by
  intro w s t h hw
  obtain ⟨i, hi, hexec⟩ | ⟨e, -, rfl⟩ := executeWord_next h
  · exact (exec_cases hexec).recordsFirstError fun hclr => hw (hclr ▸ hi)
  · exact recordsFirstError_raised s .illegalCommand

end Sys2Proof.Machine
end

section
/-! PROOF. The ports from acceptance to response, and reset (70_reset_and_hazards.md): in a good state
every command word has a next state, a wait changes nothing that the word reads or keeps, and so the
effect at the completing edge is the effect at acceptance (R338); a reset edge forgets the command in
flight (R332). -/

namespace Sys2Proof.Machine

/-! ## In a good state no command stops -/

/-- The cells of a window of the schedule exist (10_state.md R26, R27). -/
theorem cellExists_of_lt_nk {s : State} (hb : BufferInv s) (hs : ScheduleInv s) {i : Nat}
    (hi : i < s.nk.toNat) : cellExists Config.chip.kmDepth (i + 3) = true := by
  have hdepth := hb.length_le
  obtain h0 | hfit := hs
  · simp [h0] at hi
  · exact decide_eq_true (by omega)

theorem exists_next_check {α : Type} (s : State) (r : Except ErrorCode α) {k : α → Result}
    (hk : ∀ a, ∃ t, k a = .next t) : ∃ t, s.check r k = .next t := by
  cases r with
  | ok a => exact hk a
  | error e => exact ⟨_, rfl⟩

theorem exists_next_pushNibble {depth : Nat} {s : State} (hl : s.kmLen.toNat ≤ depth)
    (v : BitVec 8) : ∃ t, pushNibble depth v s = .next t := by
  refine exists_next_check s _ fun n => ?_
  split_ifs with hfull hcell
  · exact ⟨_, rfl⟩
  · exact ⟨_, rfl⟩
  · exact absurd (decide_eq_true (lt_of_le_of_ne hl hfull)) hcell

theorem exists_next_execKwin {s : State} (hb : BufferInv s) (hs : ScheduleInv s) (rd : Reg)
    (i : BitVec 8) : ∃ t, execKwin rd i s = .next t := by
  unfold execKwin
  split_ifs with hnk hcell
  · exact ⟨_, rfl⟩
  · exact ⟨_, rfl⟩
  · exact absurd (cellExists_of_lt_nk hb hs (not_le.1 hnk)) hcell

theorem exists_next_runDriver {s : State} (hb : BufferInv s) (hs : ScheduleInv s)
    (f : Block → List Block → Except ErrorCode Block) (rd rs : Reg) :
    ∃ t, runDriver f rd rs s = .next t := by
  unfold runDriver
  split_ifs with hnk hcell
  · exact ⟨_, rfl⟩
  · exact exists_next_check s _ fun _ => ⟨_, rfl⟩
  · have hlast := cellExists_of_lt_nk hb hs (i := s.nk.toNat - 1) (by omega)
    rw [show s.nk.toNat - 1 + 3 = s.nk.toNat + 2 by omega] at hlast
    exact absurd hlast hcell

/-- Only KMPUSH, KWIN and the drivers name a cell, and in a good state it exists
(20_memory.md R50). -/
theorem exists_next_exec {s : State} (hb : BufferInv s) (hs : ScheduleInv s) (i : Instr) :
    ∃ t, exec i s = .next t := by
  cases i with
  | kmpush v => exact exists_next_pushNibble hb.length_le v
  | kwin rd v => exact exists_next_execKwin hb hs rd v
  | enc rd rs | dec rd rs | decs rd rs => exact exists_next_runDriver hb hs _ rd rs
  | sbx _ v | isbx _ v => exact exists_next_check s _ fun _ => ⟨_, rfl⟩
  | ksched r => exact exists_next_check s _ fun _ => ⟨_, rfl⟩
  | ldi | mov | rd | sub | isub | perm | iperm | xor | round | iround | kmclr | stat | clrst
  | rdks => exact ⟨_, rfl⟩

theorem exists_next_executeWord {s : State} (hb : BufferInv s) (hs : ScheduleInv s) (w : Word) :
    ∃ t, executeWord w s = .next t := by
  cases hw : decode w with
  | ok i => rw [executeWord_of_decode hw]; exact exists_next_exec hb hs i
  | error e =>
    obtain ⟨t, ht, -⟩ := executeWord_raises_of_decode_error hw s
    exact ⟨t, ht⟩

/-! ## A command word has one effect on states of the same architecture -/

theorem SameArchitecture.trans {s t u : State} (hst : SameArchitecture s t)
    (htu : SameArchitecture t u) : SameArchitecture s u := by
  obtain ⟨hb, hc, ⟨hl, hn⟩, hs, he, hd⟩ := hst
  obtain ⟨hb', hc', ⟨hl', hn'⟩, hs', he', hd'⟩ := htu
  exact ⟨fun r => (hb' r).trans (hb r), fun a => (hc' a).trans (hc a), ⟨hl'.trans hl, hn'.trans hn⟩,
    hs'.trans hs, he'.trans he, hd'.trans hd⟩

theorem blockRegs_eq_of_blocksKept {s t : State} (h : BlocksKept s t) : t.b = s.b := by
  have h0 : t.b.b0 = s.b.b0 := h .b0
  have h1 : t.b.b1 = s.b.b1 := h .b1
  have h2 : t.b.b2 = s.b.b2 := h .b2
  have h3 : t.b.b3 = s.b.b3 := h .b3
  calc t.b = ⟨t.b.b0, t.b.b1, t.b.b2, t.b.b3⟩ := rfl
    _ = s.b := by rw [h0, h1, h2, h3]

theorem SameArchitecture.agreeBelowLength {s t : State} (h : SameArchitecture s t) :
    AgreeBelowLength s t := by
  obtain ⟨hb, hc, ⟨hl, hn⟩, hs, he, hd⟩ := h
  exact ⟨blockRegs_eq_of_blocksKept hb, hl, hn, hs, he, hd, fun a _ => hc a⟩

/-- Two states that agree below KM_LEN have the same architecture where the hidden cells agree too. -/
theorem AgreeBelowLength.sameArchitecture {s t : State} (h : AgreeBelowLength s t)
    (hidden : ∀ a, s.kmLen.toNat ≤ a → t.cell a = s.cell a) : SameArchitecture s t := by
  have ⟨_, hl, hn, hs, he, hd, hc⟩ := h
  exact ⟨h.readB_eq, fun a => (lt_or_ge a s.kmLen.toNat).elim (hc a) (hidden a), ⟨hl, hn⟩, hs, he,
    hd⟩

theorem AgreeBelowLength.agreeAfter_executeWord {s t : State} (h : AgreeBelowLength s t)
    (hs : ScheduleInv s) (w : Word) : AgreeAfter (executeWord w s) (executeWord w t) := by
  unfold executeWord
  cases decode w with
  | ok i => exact h.agreeAfter_exec hs i
  | error e => exact h.agreeAfter_raise _

/-- The one cell a command can write, KMPUSH's, is below the new KM_LEN. -/
theorem Effect.cell_eq_of_kmLen_le {i : Instr} {s t : State} (h : Effect i s t) {a : Nat}
    (ha : t.kmLen.toNat ≤ a) : t.cell a = s.cell a := by
  cases h with
  | push v _ _ hl =>
    rw [toNat_kmLen_pushed _ hl] at ha
    rw [cell_pushed, if_neg (by omega)]
  | raise | write | answer | clearStatus | clearKeys | schedule => rfl

theorem cell_eq_of_executeWord {w : Word} {s t : State} (h : executeWord w s = .next t) {a : Nat}
    (ha : t.kmLen.toNat ≤ a) : t.cell a = s.cell a := by
  obtain ⟨i, -, hexec⟩ | ⟨e, -, rfl⟩ := executeWord_next h
  · exact (exec_cases hexec).cell_eq_of_kmLen_le ha
  · rfl

/-- Below the new KM_LEN the two effects agree, and at and above it a command writes no cell. -/
theorem SameArchitecture.executeWord_next {w : Word} {s s' u : State} (h : SameArchitecture s s')
    (hs : ScheduleInv s) (hu : executeWord w s = .next u) :
    ∃ u', executeWord w s' = .next u' ∧ SameArchitecture u u' := by
  obtain ⟨u', hu', hagree⟩ := h.agreeBelowLength.agreeAfter_executeWord hs w u hu
  refine ⟨u', hu', hagree.sameArchitecture fun a ha => ?_⟩
  obtain ⟨-, hcells, -⟩ := h
  calc u'.cell a = s'.cell a := cell_eq_of_executeWord hu' (by rwa [hagree.kmLen_eq])
    _ = s.cell a := hcells a
    _ = u.cell a := (cell_eq_of_executeWord hu ha).symm

/-! ## From acceptance to response -/

theorem run_succ_of_step (M : Host.Core) {s s' : M.State} (h : M.step s = .next s') (n : Nat) :
    M.run (n + 1) s = M.run n s' := by
  rw [Host.Core.run, h]

theorem sameArchitecture_waitEdge (s : State) (w : Word) (k : Nat) :
    SameArchitecture s (s.waitEdge w k) :=
  ⟨fun _ => rfl, fun _ => rfl, ⟨rfl, rfl⟩, rfl, rfl, rfl⟩

/-- `t` holds the effect `u` of a command word, with the response out and the block ready again. -/
structure Completed (u t : State) : Prop where
  architecture : SameArchitecture u t
  rspValid : t.rspValid = true
  cmdReady : t.cmdReady = true
  inFlight : t.inFlight = none

theorem completed_completeEdge (u : State) (moves : List HostMove) :
    Completed u { u with inFlight := none, cmdReady := true, rspValid := true, host := moves } :=
  ⟨⟨fun _ => rfl, fun _ => rfl, ⟨rfl, rfl⟩, rfl, rfl, rfl⟩, rfl, rfl, rfl⟩

/-- By induction on the wait: each waiting edge keeps the architecture, so the word's effect too, and
brings no reset nearer than the host's moves do. -/
theorem run_completes_inFlight {w : Word} {k : Nat} {s u : State} (hsched : ScheduleInv s)
    (hhost : HostMove.reset ∉ s.host) (hf : s.inFlight = some ⟨w, k⟩)
    (hu : executeWord w s = .next u) :
    ∃ t, Host.Core.run Sys2Proof.core (k + 1) s = .next t ∧ Completed u t := by
  have hrst := rst_false_of_notMem hhost
  induction k generalizing s u with
  | zero => exact ⟨_, run_succ_of_step core (step_complete hrst hf hu) 0, completed_completeEdge u _⟩
  | succ k ih =>
    obtain ⟨u', hu', hsame⟩ := (sameArchitecture_waitEdge s w k).executeWord_next hsched hu
    have hhost' := reset_notMem_hostHolds hhost
    obtain ⟨t, ht, hdone⟩ :=
      ih (s := s.waitEdge w k) hsched hhost' rfl hu' (rst_false_of_notMem hhost')
    exact ⟨t, (run_succ_of_step core (step_wait hrst hf) _).trans ht,
      { hdone with architecture := hsame.trans hdone.architecture }⟩

/-- Settles O55: a wait of `k` edges and the completing one, with the effect that the word has on the
good state at hand. -/
theorem everyAcceptedCommandCompletes : Obligations.EveryAcceptedCommandCompletes := by
  intro s w k hs hhost hf
  obtain ⟨u, hu⟩ := exists_next_executeWord hs.buffer hs.schedule w
  obtain ⟨t, ht, hdone⟩ := run_completes_inFlight hs.schedule hhost hf hu
  exact ⟨k + 1, t, u, ht, hu, hdone.architecture, hdone.rspValid, hdone.inFlight⟩

/-! ## Reset -/

@[simp] theorem readB_resetEdge (s : State) (r : Reg) : s.resetEdge.readB r = 0 := by cases r <;> rfl

@[simp] theorem Status.word_clear : Status.clear.word = 0 := by decide

/-- Settles O59: whatever is in flight, the edge leads to the reset values of 10_state.md R32. -/
theorem resetDiscardsTheCommandInFlight : Obligations.ResetDiscardsTheCommandInFlight :=
  fun s hrst => ⟨s.resetEdge, step_reset hrst, readB_resetEdge s, rfl, rfl, Status.word_clear, rfl, rfl,
    rfl, rfl, rfl⟩

end Sys2Proof.Machine
end

section
/-! PROOF. The encoding of 30_encoding.md both ways: a format's pattern is the word whose fields are
the pattern's and whose reserved bits are clear, each as a number; so decode and encode undo each
other, and the decoder's three outcomes are those of the masks of R72. -/

namespace Sys2Proof

/-! ## Fields and patterns as numbers -/

theorem toNat_append {m n : Nat} (x : BitVec m) (y : BitVec n) :
    (x ++ y).toNat = x.toNat * 2 ^ n + y.toNat := by
  rw [BitVec.toNat_append, ← Nat.shiftLeft_add_eq_or_of_lt y.isLt, Nat.shiftLeft_eq]

theorem Reg.toNat_bits_inj {r q : Reg} : r.bits.toNat = q.bits.toNat ↔ r = q := by
  rw [BitVec.toNat_inj]
  exact ⟨fun h => by rw [← r.ofBits_bits, h, q.ofBits_bits], congrArg _⟩

theorem toNat_extractLsb' (w : Word) (lo n : Nat) :
    (w.extractLsb' lo n).toNat = w.toNat / 2 ^ lo % 2 ^ n := by
  rw [BitVec.extractLsb'_toNat, Nat.shiftRight_eq_div_pow]

theorem opField_eq_iff {w : Word} {op : BitVec 8} :
    opField w = op ↔ w.toNat / 2 ^ 24 % 2 ^ 8 = op.toNat := by
  rw [opField, ← BitVec.toNat_inj, toNat_extractLsb']

theorem ofBits_extractLsb'_eq_iff {w : Word} {lo : Nat} {r : Reg} :
    Reg.ofBits (w.extractLsb' lo 2) = r ↔ w.toNat / 2 ^ lo % 2 ^ 2 = r.bits.toNat := by
  rw [← Reg.toNat_bits_inj, Reg.bits_ofBits, toNat_extractLsb']

theorem rdField_eq_iff {w : Word} {r : Reg} :
    rdField w = r ↔ w.toNat / 2 ^ 22 % 2 ^ 2 = r.bits.toNat := ofBits_extractLsb'_eq_iff

theorem rsField_eq_iff {w : Word} {r : Reg} :
    rsField w = r ↔ w.toNat / 2 ^ 20 % 2 ^ 2 = r.bits.toNat := ofBits_extractLsb'_eq_iff

theorem rtField_eq_iff {w : Word} {r : Reg} :
    rtField w = r ↔ w.toNat / 2 ^ 18 % 2 ^ 2 = r.bits.toNat := ofBits_extractLsb'_eq_iff

theorem imm16Field_eq_iff {w : Word} {v : BitVec 16} :
    imm16Field w = v ↔ w.toNat / 2 ^ 0 % 2 ^ 16 = v.toNat := by
  rw [imm16Field, ← BitVec.toNat_inj, toNat_extractLsb']

theorem imm8Field_eq_iff {w : Word} {v : BitVec 8} :
    imm8Field w = v ↔ w.toNat / 2 ^ 0 % 2 ^ 8 = v.toNat := by
  rw [imm8Field, ← BitVec.toNat_inj, toNat_extractLsb']

theorem clearBits_iff_toNat {w : Word} {lo n : Nat} :
    clearBits w lo n = true ↔ w.toNat / 2 ^ lo % 2 ^ n = 0 := by
  rw [clearBits, beq_iff_eq, ← BitVec.toNat_inj, toNat_extractLsb', BitVec.ofNat_eq_ofNat,
    BitVec.toNat_ofNat, Nat.zero_mod]

section
variable (op : BitVec 8) (d s t : Reg)

theorem toNat_packR3 : (packR3 op d s t).toNat =
    op.toNat * 2 ^ 24 + d.bits.toNat * 2 ^ 22 + s.bits.toNat * 2 ^ 20 + t.bits.toNat * 2 ^ 18 := by
  change (op ++ d.bits ++ s.bits ++ t.bits ++ 0#18).toNat = _
  simp only [toNat_append, BitVec.toNat_zero]
  omega

theorem toNat_packR2 : (packR2 op d s).toNat =
    op.toNat * 2 ^ 24 + d.bits.toNat * 2 ^ 22 + s.bits.toNat * 2 ^ 20 := by
  change (op ++ d.bits ++ s.bits ++ 0#20).toNat = _
  simp only [toNat_append, BitVec.toNat_zero]
  omega

theorem toNat_packR1S : (packR1S op s).toNat = op.toNat * 2 ^ 24 + s.bits.toNat * 2 ^ 20 := by
  change (op ++ 0#2 ++ s.bits ++ 0#20).toNat = _
  simp only [toNat_append, BitVec.toNat_zero]
  omega

theorem toNat_packI16 (v : BitVec 16) : (packI16 op d v).toNat =
    op.toNat * 2 ^ 24 + d.bits.toNat * 2 ^ 22 + v.toNat := by
  change (op ++ d.bits ++ 0#6 ++ v).toNat = _
  simp only [toNat_append, BitVec.toNat_zero]
  omega

theorem toNat_packI8D (v : BitVec 8) : (packI8D op d v).toNat =
    op.toNat * 2 ^ 24 + d.bits.toNat * 2 ^ 22 + v.toNat := by
  change (op ++ d.bits ++ 0#14 ++ v).toNat = _
  simp only [toNat_append, BitVec.toNat_zero]
  omega

theorem toNat_packI8 (v : BitVec 8) : (packI8 op v).toNat = op.toNat * 2 ^ 24 + v.toNat := by
  change (op ++ 0#16 ++ v).toNat = _
  simp only [toNat_append, BitVec.toNat_zero]
  omega

theorem toNat_packN : (packN op).toNat = op.toNat * 2 ^ 24 := by
  change (op ++ 0#24).toNat = _
  rw [toNat_append, BitVec.toNat_zero, Nat.add_zero]

end

/-! ## A pattern is the word with its fields and its reserved bits clear (R72) -/

section
variable {w : Word} {op : BitVec 8} {d s t : Reg}

theorem packR3_eq_iff : packR3 op d s t = w ↔
    opField w = op ∧ rdField w = d ∧ rsField w = s ∧ rtField w = t ∧ clearBits w 0 18 = true := by
  have := w.isLt; have := op.isLt; have := d.bits.isLt; have := s.bits.isLt; have := t.bits.isLt
  rw [← BitVec.toNat_inj, toNat_packR3, opField_eq_iff, rdField_eq_iff, rsField_eq_iff,
    rtField_eq_iff, clearBits_iff_toNat]
  omega

theorem packR2_eq_iff : packR2 op d s = w ↔
    opField w = op ∧ rdField w = d ∧ rsField w = s ∧ clearBits w 0 20 = true := by
  have := w.isLt; have := op.isLt; have := d.bits.isLt; have := s.bits.isLt
  rw [← BitVec.toNat_inj, toNat_packR2, opField_eq_iff, rdField_eq_iff, rsField_eq_iff,
    clearBits_iff_toNat]
  omega

theorem packR1S_eq_iff : packR1S op s = w ↔
    opField w = op ∧ rsField w = s ∧ (clearBits w 22 2 && clearBits w 0 20) = true := by
  have := w.isLt; have := op.isLt; have := s.bits.isLt
  rw [← BitVec.toNat_inj, toNat_packR1S, opField_eq_iff, rsField_eq_iff, Bool.and_eq_true,
    clearBits_iff_toNat, clearBits_iff_toNat]
  omega

theorem packI16_eq_iff {v : BitVec 16} : packI16 op d v = w ↔
    opField w = op ∧ rdField w = d ∧ imm16Field w = v ∧ clearBits w 16 6 = true := by
  have := w.isLt; have := op.isLt; have := d.bits.isLt; have := v.isLt
  rw [← BitVec.toNat_inj, toNat_packI16, opField_eq_iff, rdField_eq_iff, imm16Field_eq_iff,
    clearBits_iff_toNat]
  omega

theorem packI8D_eq_iff {v : BitVec 8} : packI8D op d v = w ↔
    opField w = op ∧ rdField w = d ∧ imm8Field w = v ∧ clearBits w 8 14 = true := by
  have := w.isLt; have := op.isLt; have := d.bits.isLt; have := v.isLt
  rw [← BitVec.toNat_inj, toNat_packI8D, opField_eq_iff, rdField_eq_iff, imm8Field_eq_iff,
    clearBits_iff_toNat]
  omega

theorem packI8_eq_iff {v : BitVec 8} : packI8 op v = w ↔
    opField w = op ∧ imm8Field w = v ∧ clearBits w 8 16 = true := by
  have := w.isLt; have := op.isLt; have := v.isLt
  rw [← BitVec.toNat_inj, toNat_packI8, opField_eq_iff, imm8Field_eq_iff, clearBits_iff_toNat]
  omega

theorem packN_eq_iff : packN op = w ↔ opField w = op ∧ clearBits w 0 24 = true := by
  have := w.isLt; have := op.isLt
  rw [← BitVec.toNat_inj, toNat_packN, opField_eq_iff, clearBits_iff_toNat]
  omega

/-! ## The decoder reads every pattern -/

/-- Of a format's pattern the decoder reads the opcode and, as the reserved bits are clear, the
command with the pattern's operands. -/
theorem packR3_read : opField (packR3 op d s t) = op ∧
    ∀ mk, formatR3 (packR3 op d s t) mk = .ok (mk d s t) := by
  obtain ⟨hop, hd, hs, ht, hc⟩ := packR3_eq_iff.1 (Eq.refl (packR3 op d s t))
  exact ⟨hop, fun mk => by rw [formatR3, hd, hs, ht, hc]; rfl⟩

theorem packR2_read : opField (packR2 op d s) = op ∧
    ∀ mk, formatR2 (packR2 op d s) mk = .ok (mk d s) := by
  obtain ⟨hop, hd, hs, hc⟩ := packR2_eq_iff.1 (Eq.refl (packR2 op d s))
  exact ⟨hop, fun mk => by rw [formatR2, hd, hs, hc]; rfl⟩

theorem packR1S_read : opField (packR1S op s) = op ∧
    ∀ mk, formatR1S (packR1S op s) mk = .ok (mk s) := by
  obtain ⟨hop, hs, hc⟩ := packR1S_eq_iff.1 (Eq.refl (packR1S op s))
  exact ⟨hop, fun mk => by rw [formatR1S, hs, hc]; rfl⟩

theorem packI16_read {v : BitVec 16} : opField (packI16 op d v) = op ∧
    ∀ mk, formatI16 (packI16 op d v) mk = .ok (mk d v) := by
  obtain ⟨hop, hd, hv, hc⟩ := packI16_fields op d v
  exact ⟨hop, fun mk => by rw [formatI16, hd, hv, hc]; rfl⟩

theorem packI8D_read {v : BitVec 8} : opField (packI8D op d v) = op ∧
    ∀ mk, formatI8D (packI8D op d v) mk = .ok (mk d v) := by
  obtain ⟨hop, hd, hv, hc⟩ := packI8D_fields op d v
  exact ⟨hop, fun mk => by rw [formatI8D, hd, hv, hc]; rfl⟩

theorem packI8_read {v : BitVec 8} : opField (packI8 op v) = op ∧
    ∀ mk, formatI8 (packI8 op v) mk = .ok (mk v) := by
  obtain ⟨hop, hv, hc⟩ := packI8_fields op v
  exact ⟨hop, fun mk => by rw [formatI8, hv, hc]; rfl⟩

theorem packN_read : opField (packN op) = op ∧ ∀ i, formatN (packN op) i = .ok i := by
  obtain ⟨hop, hc⟩ := packN_eq_iff.1 (Eq.refl (packN op))
  exact ⟨hop, fun i => by rw [formatN, hc]; rfl⟩

end

theorem decode_encode (i : Instr) : decode (encode i) = .ok i := by
  cases i with
  | xor | round | iround => simp [encode, decode, packR3_read]
  | mov | sub | isub | perm | iperm | enc | dec | decs => simp [encode, decode, packR2_read]
  | rd => simp [encode, decode, packR1S_read]
  | ldi => simp [encode, decode, packI16_read]
  | sbx | isbx | kwin => simp [encode, decode, packI8D_read]
  | kmpush | ksched => simp [encode, decode, packI8_read]
  | kmclr | stat | clrst | rdks => simp [encode, decode, packN_read]

theorem ofNat_toNat_mod_two_pow (w : Word) : BitVec.ofNat 32 (w.toNat % 2 ^ 32) = w := by
  rw [Nat.mod_eq_of_lt w.isLt, BitVec.ofNat_toNat, BitVec.setWidth_eq]

/-- Settles O1: every format's pattern is read back; the table's numbering of a 32-bit word is the
word. -/
theorem decodeInvertsEncode : Obligations.DecodeInvertsEncode := by
  refine fun i => ⟨decode_encode i, ?_⟩
  rw [decodeTableWord, if_pos le_rfl, ofNat_toNat_mod_two_pow, decode_encode]

/-! ## A word that decodes is its command's pattern -/

theorem encode_of_orReserved {w : Word} {c : Bool} {i j : Instr}
    (h : orReserved c j = .ok i) (hw : c = true → encode j = w) : encode i = w := by
  cases c with
  | true => cases h; exact hw rfl
  | false => cases h

/-- The opcode found in the word is the one its command's pattern starts with. -/
theorem encode_of_decode {w : Word} {i : Instr} (h : decode w = .ok i) : encode i = w := by
  have hop {n : Nat} (hn : (opField w).toNat = n) : opField w = BitVec.ofNat 8 n := by
    rw [← hn, BitVec.ofNat_toNat, BitVec.setWidth_eq]
  unfold decode at h
  split at h
  case h_1 hn =>
    exact encode_of_orReserved h fun hc => packI16_eq_iff.2 ⟨hop hn, rfl, rfl, hc⟩
  case h_3 hn =>
    exact encode_of_orReserved h fun hc => packR1S_eq_iff.2 ⟨hop hn, rfl, hc⟩
  case h_10 hn | h_11 hn | h_12 hn =>
    exact encode_of_orReserved h fun hc => packR3_eq_iff.2 ⟨hop hn, rfl, rfl, rfl, hc⟩
  case h_6 hn | h_7 hn | h_16 hn =>
    exact encode_of_orReserved h fun hc => packI8D_eq_iff.2 ⟨hop hn, rfl, rfl, hc⟩
  case h_14 hn | h_15 hn =>
    exact encode_of_orReserved h fun hc => packI8_eq_iff.2 ⟨hop hn, rfl, hc⟩
  case h_13 hn | h_20 hn | h_21 hn | h_22 hn =>
    exact encode_of_orReserved h fun hc => packN_eq_iff.2 ⟨hop hn, hc⟩
  case h_2 hn | h_4 hn | h_5 hn | h_8 hn | h_9 hn | h_17 hn | h_18 hn | h_19 hn =>
    exact encode_of_orReserved h fun hc => packR2_eq_iff.2 ⟨hop hn, rfl, rfl, hc⟩
  case h_23 => cases h

/-- Settles O2: the word is the pattern of its own fields. -/
theorem encodeInvertsDecode : Obligations.EncodeInvertsDecode := fun _ _ => encode_of_decode

/-! ## The decoder and the masks of R72 -/

theorem ushiftRight_eq_iff {w : Word} {op : BitVec 8} :
    w >>> 24 = op.setWidth 32 ↔ (opField w).toNat = op.toNat := by
  rw [← BitVec.toNat_inj, toNat_opField, BitVec.toNat_setWidth_of_le (by decide)]

theorem opcodeAssigned_iff {w : Word} :
    opcodeAssigned w = true ↔ ∃ r ∈ opcodeMap, (opField w).toNat = r.op.toNat := by
  simp only [opcodeAssigned, List.any_eq_true, beq_iff_eq, ushiftRight_eq_iff]

theorem reservedBitsClear_iff {w : Word} :
    reservedBitsClear w = true ↔
      ∀ r ∈ opcodeMap, (opField w).toNat = r.op.toNat → r.format.reservedClear w = true := by
  simp only [reservedBitsClear, List.all_eq_true, Bool.or_eq_true, bne_iff_ne, beq_iff_eq, ne_eq,
    ushiftRight_eq_iff, OpRow.and_mask_eq_matchWord_iff, ← imp_iff_not_or]
  exact forall₂_congr fun r _ => imp_congr_right fun hop => and_iff_right hop

/-- No opcode is in two rows. -/
theorem eq_of_op_eq : ∀ r ∈ opcodeMap, ∀ q ∈ opcodeMap, r.op.toNat = q.op.toNat → r = q := by
  decide

/-- The decoder's three outcomes, as the table of R72 and R76 has them: an opcode outside the map,
or a row whose reserved bits are clear or are not. -/
theorem decode_outcomes (w : Word) :
    (opcodeAssigned w = false ∧ decode w = .error .unassignedOpcode) ∨
    (opcodeAssigned w = true ∧ reservedBitsClear w = true ∧ ∃ i, decode w = .ok i) ∨
    (opcodeAssigned w = true ∧ reservedBitsClear w = false ∧ decode w = .error .reservedBits) := by
  by_cases hmap : ∃ r ∈ opcodeMap, (opField w).toNat = r.op.toNat
  · have hassigned := opcodeAssigned_iff.2 hmap
    obtain ⟨r, hr, hop⟩ := hmap
    have hclear : reservedBitsClear w = r.format.reservedClear w := by
      rw [Bool.eq_iff_iff, reservedBitsClear_iff]
      refine ⟨fun h => h r hr hop, fun h q hq hopq => ?_⟩
      rwa [← eq_of_op_eq r hr q hq (hop.symm.trans hopq)]
    obtain ⟨i, hi⟩ := decode_of_mapped hr hop
    rw [← hclear] at hi
    cases hc : reservedBitsClear w with
    | true => exact .inr (.inl ⟨hassigned, rfl, i, by rw [hi, hc]; rfl⟩)
    | false => exact .inr (.inr ⟨hassigned, rfl, by rw [hi, hc]; rfl⟩)
  · have hassigned : opcodeAssigned w = false :=
      Bool.eq_false_iff.2 (mt opcodeAssigned_iff.1 hmap)
    exact .inl ⟨hassigned, decode_of_unmapped fun r hr hop => hmap ⟨r, hr, hop⟩⟩

theorem exists_decode_iff_legalWord (w : Word) : (∃ i, decode w = .ok i) ↔ legalWord w = true := by
  refine ⟨fun ⟨i, hi⟩ => ?_, exists_decode_of_legalWord⟩
  by_contra hillegal
  obtain ⟨e, he⟩ := exists_decode_error_of_not_legalWord (Bool.eq_false_iff.2 hillegal)
  rw [hi] at he
  cases he

/-- Settles O3: the three outcomes exclude each other. -/
theorem decoderAcceptsExactlyTheLegalWords : Obligations.DecoderAcceptsExactlyTheLegalWords := by
  intro w
  refine ⟨exists_decode_iff_legalWord w, ?_⟩
  obtain ⟨ha, hd⟩ | ⟨ha, hc, i, hd⟩ | ⟨ha, hc, hd⟩ := decode_outcomes w
  · simp [ha, hd]
  · simp [ha, hc, hd]
  · simp [ha, hc, hd]

/-- Settles O6: each word's opcode, fields and reserved bits by evaluation. -/
theorem wordsOfTheSpecDecode : Obligations.WordsOfTheSpecDecode := by
  unfold Obligations.WordsOfTheSpecDecode
  decide

/-! ## The assembler (R82) -/

namespace Machine

theorem imm8_num_toNat (v : BitVec 8) : AsmOperand.imm8 (.num v.toNat) = some v := by
  rw [AsmOperand.imm8, if_pos v.isLt, BitVec.ofNat_toNat, BitVec.setWidth_eq]

theorem imm16_num_toNat (v : BitVec 16) : AsmOperand.imm16 (.num v.toNat) = some v := by
  rw [AsmOperand.imm16, if_pos v.isLt, BitVec.ofNat_toNat, BitVec.setWidth_eq]

/-- A mnemonic with its operands in order; an immediate is read back from its number. -/
theorem assemble_operandsOf (i : Instr) : assemble (mnemonicOf i) (operandsOf i) = some [i] := by
  cases i with
  | ldi d v => exact congrArg (Option.map _) (imm16_num_toNat v)
  | sbx d v | isbx d v | kwin d v => exact congrArg (Option.map _) (imm8_num_toNat v)
  | kmpush v | ksched v => exact congrArg (Option.map _) (imm8_num_toNat v)
  | mov | rd | sub | isub | perm | iperm | xor | round | iround | kmclr | enc | dec | decs | stat
  | clrst | rdks => rfl

/-- The fields of R82's formula do not overlap, so that its OR is a concatenation. -/
theorem toNat_assembledWord (op : BitVec 8) (d s t : BitVec 2) (imm : BitVec 16) :
    (assembledWord op d s t imm).toNat =
      op.toNat * 2 ^ 24 + d.toNat * 2 ^ 22 + s.toNat * 2 ^ 20 + t.toNat * 2 ^ 18 + imm.toNat := by
  have happ : assembledWord op d s t imm = op ++ d ++ s ++ t ++ 0#2 ++ imm := by
    refine BitVec.eq_of_getLsbD_eq fun i hi => ?_
    simp only [assembledWord, BitVec.getLsbD_or, BitVec.getLsbD_shiftLeft, BitVec.getLsbD_setWidth,
      BitVec.getLsbD_append, BitVec.getLsbD_zero]
    interval_cases i <;> simp
  rw [happ]
  simp only [toNat_append, BitVec.toNat_zero]
  omega

/-- Settles O8: a pattern and the formula are the same number. -/
theorem assemblerAndEncodingAgree : Obligations.AssemblerAndEncodingAgree := by
  refine ⟨assemble_operandsOf, fun _ => rfl, fun d v => ?_, fun r => ?_, fun d r => ?_,
    fun d r q => ?_, fun v => ?_, fun d v => ?_⟩ <;>
    refine BitVec.eq_of_toNat_eq ?_ <;> rw [encode, toNat_assembledWord]
  · rw [toNat_packI16]; simp
  · rw [toNat_packR1S]; simp
  · rw [toNat_packR2]; simp
  · rw [toNat_packR3]; simp
  · rw [toNat_packI8, BitVec.toNat_setWidth_of_le (by decide)]; simp
  · rw [toNat_packI8D, BitVec.toNat_setWidth_of_le (by decide)]; simp

end Machine

end Sys2Proof
end

section
/-! PROOF. The commands that complete in every state, each by its rule (40_substitution.md §3,
41_permutation.md §3, 42_keymix_round.md, 45_move_status.md), and ROUND as three of them. -/

namespace Sys2Proof.Machine

/-! ## Completing and raising -/

/-- A command whose only effect is to raise completes raising. -/
theorem completesRaising_of_exec_eq_raised {i : Instr} {s : State} {e : ErrorCode}
    (h : exec i s = .next (raised s e)) : CompletesRaising i s e.code :=
  ⟨raised s e, h, raisedOnly_raised s e⟩

theorem check_candidateNibble_of_le (s : State) {v : BitVec 8} (hv : v.toNat ≤ 15)
    (k : Nibble → Result) : s.check (candidateNibble v) k = k (v.setWidth 4) := by
  rw [candidateNibble_ok hv]
  rfl

/-! ## Data movement and status -/

/-- Settles O10: the three rules as they stand. -/
theorem dataMovementCompletes : Obligations.DataMovementCompletes :=
  fun _ _ _ _ => ⟨completesWith_of_exec_eq_wrote rfl, completesWith_of_exec_eq_wrote rfl,
    _, rfl, rfl, rfl⟩

theorem extractLsb'_scheduleWord (s : State) :
    s.scheduleWord.extractLsb' 8 8 = s.nk ∧ s.scheduleWord.extractLsb' 0 8 = s.kmLen :=
  ⟨BitVec.extractLsb'_append_eq_left, BitVec.extractLsb'_append_eq_right⟩

/-- Settles O11: the responses are the two status words, and CLRST's is 0. -/
theorem statusCommandsComplete : Obligations.StatusCommandsComplete :=
  fun s => ⟨⟨_, rfl, ⟨rfl, rfl⟩, rfl⟩, ⟨_, rfl, ⟨rfl, rfl⟩, Status.word_clear⟩,
    _, rfl, rfl, extractLsb'_scheduleWord s⟩

/-- Settles O12: the word has four FIRSTERR bits and one STICKY bit, so 32 values. -/
theorem statusWordFields : Obligations.StatusWordFields := by
  have hfields : ∀ (st : Bool) (e : BitVec 4),
      (Status.word ⟨st, e⟩).getLsbD 0 = st ∧ (Status.word ⟨st, e⟩).extractLsb' 4 4 = e ∧
        (Status.word ⟨st, e⟩).extractLsb' 1 3 = 0 ∧ (Status.word ⟨st, e⟩).extractLsb' 8 8 = 0 := by
    decide
  exact ⟨fun st => hfields st.sticky st.firstErr, by decide⟩

/-- Settles O13: the four rules write the response, CLRST STATUS too, and no other field. -/
theorem readOutAndClearFrame : Obligations.ReadOutAndClearFrame := by
  rintro i s t (⟨r, rfl⟩ | rfl | rfl | rfl) h <;> cases h
  all_goals
    refine ⟨fun _ => rfl, fun _ => rfl, ⟨rfl, rfl⟩, ⟨rfl, rfl, rfl, rfl, rfl, rfl⟩, ?_⟩
  · exact fun _ => rfl
  · exact fun _ => rfl
  · exact fun _ => rfl
  · exact absurd rfl

/-! ## Substitution, permutation and rounds -/

/-- Settles O14: both commands write their layer of the source. -/
theorem substitutionCommandsComplete : Obligations.SubstitutionCommandsComplete :=
  fun s rd rs => ⟨completesWith_of_exec_eq_wrote (exec_sub rd rs s),
    completesWith_of_exec_eq_wrote (exec_isub rd rs s)⟩

/-- Settles O15: the check of the candidate nibble goes on below 16 and raises from 16 on. -/
theorem scalarLookupsComplete : Obligations.ScalarLookupsComplete :=
  fun s _ _ => ⟨fun hv => ⟨completesWith_of_exec_eq_wrote (check_candidateNibble_of_le s hv _),
      completesWith_of_exec_eq_wrote (check_candidateNibble_of_le s hv _)⟩,
    fun hv => ⟨completesRaising_of_exec_eq_raised (e := .outOfRange)
        (check_candidateNibble_raises s hv _),
      completesRaising_of_exec_eq_raised (e := .outOfRange) (check_candidateNibble_raises s hv _)⟩⟩

theorem exec_perm (rd rs : Reg) (s : State) :
    exec (.perm rd rs) s = .next (wrote s rd (permute (s.readB rs))) := rfl

/-- Settles O18: both commands write their permutation of the source. -/
theorem permutationCommandsComplete : Obligations.PermutationCommandsComplete :=
  fun s rd rs => ⟨completesWith_of_exec_eq_wrote (exec_perm rd rs s),
    completesWith_of_exec_eq_wrote rfl⟩

theorem exec_round (rd rs rt : Reg) (s : State) :
    exec (.round rd rs rt) s =
      .next (wrote s rd (fullRound Config.chip.sbox (s.readB rs) (s.readB rt))) := rfl

/-- Settles O22: the three commands write R160's and R162's function of the sources. -/
theorem roundCommandsComplete : Obligations.RoundCommandsComplete :=
  fun s rd rs rt => ⟨completesWith_of_exec_eq_wrote (exec_xor rd rs rt s),
    completesWith_of_exec_eq_wrote (exec_round rd rs rt s), completesWith_of_exec_eq_wrote rfl⟩

/-- Settles O25: each of the three commands reads in the scratch register what the one before it
wrote, and the last writes the round's value. -/
theorem roundIsMixSubstitutePermute : Obligations.RoundIsMixSubstitutePermute := by
  intro s rd rs rt q
  refine ⟨_, _, _, _, exec_round rd rs rt s, exec_xor q rs rt s, exec_sub q q _,
    exec_perm rd q _, ?_⟩
  simp only [readB_wrote_self]
  refine ⟨rfl, fun r hrd hq => ?_, rfl, rfl⟩
  rw [readB_wrote_of_ne _ _ hrd, readB_wrote_of_ne _ _ hq, readB_wrote_of_ne _ _ hq,
    readB_wrote_of_ne _ _ hrd]

end Sys2Proof.Machine
end

section
/-! PROOF. The key-schedule commands of 43_key_schedule.md §2, each where it completes and where it
raises, and what they leave of the cells, the lengths and the schedule (R336, 20_memory.md §4). -/

namespace Sys2Proof.Machine

/-! ## KMCLR and KMPUSH -/

/-- Settles O26: the rule writes the two lengths and the response. -/
theorem clearKeysCompletes : Obligations.ClearKeysCompletes :=
  fun _ => ⟨_, rfl, ⟨rfl, rfl⟩, rfl, rfl, fun _ => rfl, fun _ => rfl, rfl, rfl, rfl, rfl, rfl, rfl,
    rfl⟩

theorem toNat_rspData_pushed {s : State} (n : Nibble) (hl : s.kmLen.toNat < Config.chip.kmDepth) :
    (pushed s n).rspData.toNat = s.kmLen.toNat + 1 := by
  rw [← toNat_kmLen_pushed n hl]
  exact BitVec.toNat_setWidth_of_le (by decide)

/-- Settles O27: the write of cell KM_LEN, and KM_LEN + 1 does not wrap below KM_DEPTH. -/
theorem pushAppendsOneCell : Obligations.PushAppendsOneCell := by
  intro s v hv hl
  refine ⟨_, exec_kmpush_of_lt hv hl, ?_, fun a ha => ?_, toNat_kmLen_pushed _ hl, rfl,
    toNat_rspData_pushed _ hl, rfl, rfl, fun _ => rfl, rfl, rfl, rfl, rfl, rfl, rfl⟩
  · rw [cell_pushed, if_pos rfl]
  · rw [cell_pushed, if_neg ha]

/-- Settles O28: the nibble is checked before the buffer. -/
theorem pushRaises : Obligations.PushRaises :=
  fun s _ => ⟨fun hv => completesRaising_of_exec_eq_raised (e := .outOfRange)
      (check_candidateNibble_raises s hv _),
    fun hv hl => completesRaising_of_exec_eq_raised (e := .keyMaterialFull)
      (pushNibble_raises_of_full hv hl)⟩

/-! ## KSCHED -/

theorem exec_ksched_of_scheduleLength {s : State} {r n : BitVec 8}
    (h : scheduleLength Config.chip.ksStrict r s.kmLen = .ok n) :
    exec (.ksched r) s = .next (scheduled s n) := by
  change s.check (scheduleLength Config.chip.ksStrict r s.kmLen) _ = _
  rw [h]
  rfl

/-- Settles O29: the three branches of R194, the last under either policy. -/
theorem scheduleSetsItsLength : Obligations.ScheduleSetsItsLength := by
  intro s r sets
  have hsets {n : BitVec 8} (h : scheduleLength Config.chip.ksStrict r s.kmLen = .ok n) : sets n :=
    ⟨_, exec_ksched_of_scheduleLength h, rfl, ⟨rfl, rfl⟩, rfl, rfl, fun _ => rfl, fun _ => rfl, rfl,
      rfl, rfl, rfl, rfl, rfl⟩
  refine ⟨fun h0 => hsets (if_pos h0), fun h0 hfit => hsets ((if_neg h0).trans (if_pos hfit)),
    fun h0 hshort => ?_⟩
  cases hstrict : Config.chip.ksStrict with
  | true =>
    have hpos : 1 ≤ r.toNat := Nat.pos_of_ne_zero (BitVec.toNat_ne_iff_ne.2 h0)
    exact completesRaising_of_exec_eq_raised (e := .insufficientKeyMaterial)
      (schedule_raises hstrict hpos hshort)
  | false =>
    exact hsets (by rw [scheduleLength, if_neg h0, if_neg (by omega), hstrict]; rfl)

/-! ## KWIN -/

theorem execKwin_of_cellExists (rd : Reg) {i : BitVec 8} {s : State} (hi : i.toNat < s.nk.toNat)
    (hcell : cellExists Config.chip.kmDepth (i.toNat + 3) = true) :
    execKwin rd i s = .next (wrote s rd (s.window i.toNat)) := by
  rw [execKwin, if_neg (not_le.2 hi), if_pos hcell]
  rfl

/-- Settles O30: below NK the window's cells exist in a good state. -/
theorem windowIsExtracted : Obligations.WindowIsExtracted :=
  fun _ rd _ hs => ⟨fun hi => completesWith_of_exec_eq_wrote
      (execKwin_of_cellExists rd hi (cellExists_of_lt_nk hs.buffer hs.schedule hi)),
    fun hi => completesRaising_of_exec_eq_raised (e := .keyIndex) (execKwin_raises rd hi)⟩

/-- Settles O32: nibble `j` of a window is cell `i + j`. -/
theorem windowsOverlapByThree : Obligations.WindowsOverlapByThree := by
  intro s i j hj
  interval_cases j
  · exact (nib_pack_0 ..).trans (nib_pack_1 ..).symm
  · exact (nib_pack_1 ..).trans (nib_pack_2 ..).symm
  · exact (nib_pack_2 ..).trans (nib_pack_3 ..).symm

/-! ## What the key commands leave alone -/

/-- The cell KMPUSH writes, KM_LEN, is in no window of the schedule (10_state.md R27). -/
theorem keys_pushed {s : State} (hs : ScheduleInv s) (n : Nibble) : (pushed s n).keys = s.keys := by
  obtain h0 | hfit := hs
  · simp [State.keys, pushed, h0]
  · refine List.map_congr_left fun i hi => ?_
    have : i < s.nk.toNat := List.mem_range.1 hi
    simp only [State.window, cell_pushed]
    rw [if_neg (by omega), if_neg (by omega), if_neg (by omega), if_neg (by omega)]

/-- Settles O34: KMPUSH raises, or appends past every window; KMCLR sets NK to 0. -/
theorem scheduleSurvivesPushNotClear : Obligations.ScheduleSurvivesPushNotClear := by
  constructor
  · intro s t v hs h
    obtain ⟨-, rfl⟩ | ⟨-, -, rfl⟩ | ⟨-, -, rfl⟩ := pushNibble_next h
    · exact ⟨rfl, rfl⟩
    · exact ⟨rfl, rfl⟩
    · exact ⟨rfl, keys_pushed hs.schedule _⟩
  · rintro s _ ⟨⟩
    exact ⟨rfl, rfl⟩

/-! ## Reads issued again -/

theorem raised_raised (s : State) (e : ErrorCode) : raised (raised s e) e = raised s e := by
  simp [raised]

theorem wrote_wrote (s : State) (r : Reg) (v : Block) : wrote (wrote s r v) r v = wrote s r v := by
  cases r <;> rfl

/-- KWIN changes neither NK nor a cell, so it takes the same branch and reads the same window. -/
theorem execKwin_again {rd : Reg} {i : BitVec 8} {s t : State} (h : execKwin rd i s = .next t) :
    execKwin rd i t = .next t := by
  obtain ⟨hi, rfl⟩ | ⟨hi, rfl⟩ := execKwin_next h
  · exact (execKwin_raises (s := raised s .keyIndex) rd hi).trans
      (congrArg _ (raised_raised s .keyIndex))
  · have hcell : cellExists Config.chip.kmDepth (i.toNat + 3) = true := by
      by_contra hno
      rw [execKwin, if_neg (not_le.2 hi), if_neg hno] at h
      cases h
    have hagain := execKwin_of_cellExists (s := wrote s rd (s.window i.toNat)) rd hi hcell
    exact hagain.trans (congrArg _ (wrote_wrote s rd (s.window i.toNat)))

/-- Settles O50: none of the four writes what it reads. -/
theorem readsAreIdempotent : Obligations.ReadsAreIdempotent := by
  rintro i s t (⟨d, v, rfl⟩ | ⟨r, rfl⟩ | rfl | rfl) h
  · exact execKwin_again h
  · cases h; rfl
  · cases h; rfl
  · cases h; rfl

end Sys2Proof.Machine
end

section
/-! PROOF. The frames over all commands: what a command leaves alone by its destination
(10_state.md R23, 45_move_status.md R263), what an error leaves alone (60_exceptions.md R300), and
the registers that a command reads. -/

namespace Sys2Proof.Machine

/-! ## What every command leaves alone -/

section
variable {i : Instr} {s t : State}

theorem Effect.portsKept (h : Effect i s t) : PortsKept s t := by
  cases h <;> exact ⟨rfl, rfl, rfl, rfl, rfl, rfl⟩

theorem Effect.readB_eq (h : Effect i s t) {r : Reg} (hr : destOf i ≠ some r) :
    t.readB r = s.readB r := by
  cases h with
  | write rd v hd => exact readB_wrote_of_ne s v fun heq => hr (heq ▸ hd)
  | raise | answer | clearStatus | clearKeys | push | schedule => rfl

theorem Effect.status_eq (h : Effect i s t) (hi : i ≠ .clrst) (h0 : t.rspErr = 0) :
    t.status = s.status := by
  cases h with
  | raise e => exact absurd h0 e.code_ne_zero
  | clearStatus hclr => exact absurd hclr hi
  | write | answer | clearKeys | push | schedule => rfl

/-- A command with a destination raises or writes there. -/
theorem Effect.raised_or_wrote (h : Effect i s t) {rd : Reg} (hd : destOf i = some rd) :
    (∃ e, t = raised s e) ∨ ∃ v, t = wrote s rd v := by
  cases h with
  | raise e => exact .inl ⟨e, rfl⟩
  | write q v hq => cases hd.symm.trans hq; exact .inr ⟨v, rfl⟩
  | answer v hq => cases hd.symm.trans hq
  | clearStatus hi | clearKeys hi | push _ hi => subst hi; cases hd
  | schedule n hi => obtain ⟨r, rfl⟩ := hi; cases hd

end

/-- Settles O45: a command with a destination raises, with STATUS and the response alone written, or
writes there without error. -/
theorem blockWritersFrame : Obligations.BlockWritersFrame := by
  intro i rd s t hd h
  obtain ⟨e, rfl⟩ | ⟨v, rfl⟩ := (exec_cases h).raised_or_wrote hd
  · have hraised := raisedOnly_raised s e
    have ⟨_, _, _, hb, hc, hl, hp⟩ := hraised
    exact ⟨fun r _ => hb r, hc, hl, hp, fun h0 => absurd h0 e.code_ne_zero, fun _ => hraised⟩
  · exact ⟨fun r hr => readB_wrote_of_ne s v hr, fun _ => rfl, ⟨rfl, rfl⟩, (exec_cases h).portsKept,
      fun _ => ⟨rfl, (readB_wrote_self s rd v).symm⟩, absurd rfl⟩

/-- Settles O46: every error is raised by the one operation that raises; the completing edge puts
the handshake around the word's effect. -/
theorem errorsWriteOnlyStatus : Obligations.ErrorsWriteOnlyStatus := by
  constructor
  · intro w s t h herr
    obtain h0 | ⟨e, -, rfl⟩ := succeedsOrCaused_of_executeWord h
    · exact absurd h0 herr
    · exact raisedOnly_raised s e
  · intro w s u hrst hf hu
    obtain ⟨harch, hvalid, hready, hidle⟩ := completed_completeEdge u s.hostHolds
    exact ⟨_, step_complete hrst hf hu, hvalid, hready, hidle, harch⟩

/-! ## The key commands -/

theorem Effect.cell_eq_of_ne_kmLen {i : Instr} {s t : State} (h : Effect i s t) {a : Nat}
    (ha : (∃ v, i = .kmpush v) → a ≠ s.kmLen.toNat) : t.cell a = s.cell a := by
  cases h with
  | push v hi => rw [cell_pushed, if_neg (ha ⟨v, hi⟩)]
  | raise | write | answer | clearStatus | clearKeys | schedule => rfl

theorem Effect.nk_eq_of_kmpush {v : BitVec 8} {s t : State} (h : Effect (.kmpush v) s t) :
    t.nk = s.nk := by
  cases h with
  | clearKeys hi => cases hi
  | schedule n hi => obtain ⟨r, hr⟩ := hi; cases hr
  | raise | write | answer | clearStatus | push => rfl

theorem Effect.kmLen_eq_of_ksched {r : BitVec 8} {s t : State} (h : Effect (.ksched r) s t) :
    t.kmLen = s.kmLen := by
  cases h with
  | clearKeys hi => cases hi
  | push v hi => cases hi
  | raise | write | answer | clearStatus | schedule => rfl

/-- Settles O36: none of the three has a destination or is CLRST, and of all commands KMPUSH alone
writes a cell. -/
theorem keyCommandsFrame : Obligations.KeyCommandsFrame := by
  intro i s t hi h
  have heff := exec_cases h
  have hkind : destOf i = none ∧ i ≠ .clrst := by
    obtain rfl | ⟨v, rfl⟩ | ⟨r, rfl⟩ := hi <;> exact ⟨rfl, nofun⟩
  obtain ⟨hdest, hclr⟩ := hkind
  refine ⟨fun r => heff.readB_eq (by simp [hdest]), heff.portsKept, heff.status_eq hclr,
    fun a => heff.cell_eq_of_ne_kmLen, ?_, ?_⟩
  · rintro ⟨v, rfl⟩
    exact heff.nk_eq_of_kmpush
  · rintro ⟨r, rfl⟩
    exact heff.kmLen_eq_of_ksched

/-! ## Two runs with other block registers -/

/-- Where the first outcome is a next state, so is the second, the two differ in block registers
alone, and of those the command's destination has one value where it is written. -/
def AgreeButBlocks (i : Instr) (b : BlockRegs) (r q : Result) : Prop :=
  ∀ t, r = .next t → ∃ u, q = .next u ∧ { u with b := t.b } = t ∧
    (∀ r, destOf i ≠ some r → u.readB r = b.get r) ∧
    (∀ r, destOf i = some r → t.rspErr = 0 → u.readB r = t.readB r)

section
variable {i : Instr} {b : BlockRegs} {s : State}

theorem agreeButBlocks_next {t u : State} (ht : { u with b := t.b } = t) (hb : u.b = b)
    (hdest : destOf i = none ∨ t.rspErr ≠ 0) : AgreeButBlocks i b (.next t) (.next u) := by
  rintro _ ⟨⟩
  refine ⟨u, rfl, ht, fun r _ => congrArg (·.get r) hb, fun r hr h0 => ?_⟩
  obtain hnone | herr := hdest
  · cases hnone.symm.trans hr
  · exact absurd h0 herr

theorem agreeButBlocks_fault (f : Fault) (q : Result) : AgreeButBlocks i b (.fault f) q := nofun

theorem agreeButBlocks_raise (e : ErrorCode) :
    AgreeButBlocks i b (s.raise e) (State.raise { s with b := b } e) :=
  agreeButBlocks_next rfl rfl (.inr e.code_ne_zero)

theorem agreeButBlocks_respond (hd : destOf i = none) {v w : BitVec 16} (hv : w = v) :
    AgreeButBlocks i b (s.respond v) (State.respond { s with b := b } w) := by
  subst hv
  exact agreeButBlocks_next rfl rfl (.inl hd)

theorem agreeButBlocks_writeBack {rd : Reg} (hd : destOf i = some rd) {v w : Block} (hv : w = v) :
    AgreeButBlocks i b (s.writeBack rd v) (State.writeBack { s with b := b } rd w) := by
  subst hv
  rintro _ ⟨⟩
  refine ⟨wrote { s with b := b } rd w, rfl, rfl, fun r hr => ?_, fun r hr _ => ?_⟩
  · exact readB_wrote_of_ne _ w fun heq => hr (heq ▸ hd)
  · cases hr.symm.trans hd
    exact (readB_wrote_self _ _ w).trans (readB_wrote_self s _ w).symm

theorem agreeButBlocks_check {α : Type} {r q : Except ErrorCode α} {k l : α → Result}
    (hr : q = r) (hk : ∀ a, AgreeButBlocks i b (k a) (l a)) :
    AgreeButBlocks i b (s.check r k) (State.check { s with b := b } q l) := by
  subst hr
  cases q with
  | ok a => exact hk a
  | error e => exact agreeButBlocks_raise e

theorem agreeButBlocks_runDriver {f : Block → List Block → Except ErrorCode Block} {rd rs : Reg}
    (hd : destOf i = some rd) (hrs : b.get rs = s.readB rs) :
    AgreeButBlocks i b (runDriver f rd rs s) (runDriver f rd rs { s with b := b }) := by
  unfold runDriver
  dsimp only
  split_ifs
  · exact agreeButBlocks_raise _
  · exact agreeButBlocks_check (congrArg (f · s.keys) hrs) fun _ => agreeButBlocks_writeBack hd rfl
  · exact agreeButBlocks_fault _ _

theorem agreeButBlocks_exec (h : ∀ r ∈ sourcesOf i, b.get r = s.readB r) :
    AgreeButBlocks i b (exec i s) (exec i { s with b := b }) := by
  cases i with
  | ldi rd v => exact agreeButBlocks_writeBack rfl rfl
  | mov rd rs | sub rd rs | isub rd rs | perm rd rs | iperm rd rs =>
    have hrs := h rs (by simp [sourcesOf])
    exact agreeButBlocks_writeBack rfl (by simp only [State.readB, hrs])
  | xor rd rs rt | round rd rs rt | iround rd rs rt =>
    have hrs := h rs (by simp [sourcesOf])
    have hrt := h rt (by simp [sourcesOf])
    exact agreeButBlocks_writeBack rfl (by simp only [State.readB, hrs, hrt])
  | sbx rd v | isbx rd v =>
    exact agreeButBlocks_check rfl fun _ => agreeButBlocks_writeBack rfl rfl
  | kwin rd v =>
    change AgreeButBlocks _ _ (execKwin rd v s) (execKwin rd v _)
    unfold execKwin
    dsimp only
    split_ifs
    · exact agreeButBlocks_raise _
    · exact agreeButBlocks_writeBack rfl rfl
    · exact agreeButBlocks_fault _ _
  | enc rd rs | dec rd rs | decs rd rs =>
    exact agreeButBlocks_runDriver rfl (h rs (by simp [sourcesOf]))
  | rd rs => exact agreeButBlocks_respond rfl (h rs (by simp [sourcesOf]))
  | kmclr | stat | clrst | rdks => exact agreeButBlocks_next rfl rfl (.inl rfl)
  | ksched r => exact agreeButBlocks_check rfl fun _ => agreeButBlocks_next rfl rfl (.inl rfl)
  | kmpush v =>
    refine agreeButBlocks_check rfl fun n => ?_
    dsimp only
    split_ifs
    · exact agreeButBlocks_raise _
    · exact agreeButBlocks_next rfl rfl (.inl rfl)
    · exact agreeButBlocks_fault _ _

end

/-- Settles O49: a command writes its destination alone, and its values come from its sources. -/
theorem onlyNamedRegistersMatter : Obligations.OnlyNamedRegistersMatter :=
  ⟨fun _ _ _ _ h hr => (exec_cases h).readB_eq hr, fun _ _ t _ h ht => agreeButBlocks_exec h t ht⟩

end Sys2Proof.Machine
end

section
/-! PROOF. The driver commands of 44_cipher_driver.md §3: in a good state with two keys or more each
writes its cipher function of the source and the schedule, and both decryptions give the plaintext
back (R226). -/

namespace Sys2Proof.Machine

@[simp] theorem length_keys (s : State) : s.keys.length = s.nk.toNat := by
  rw [State.keys, List.length_map, List.length_range]

/-- The buffer's invariant is of the written cells, with KM_LEN no higher than they reach. -/
theorem BufferInv.of_km_eq {s t : State} (h : BufferInv s) (hkm : t.km = s.km)
    (hl : t.kmLen.toNat ≤ s.kmLen.toNat) : BufferInv t where
  canonical := hkm ▸ h.canonical
  cells_exist := hkm ▸ h.cells_exist
  written a ha := hkm ▸ h.written a (ha.trans_le hl)
  length_le := hl.trans h.length_le

/-- The windows' cells exist in a good state, so a function that answers has its value written. -/
theorem runDriver_of_eq_ok {f : Block → List Block → Except ErrorCode Block} {rd rs : Reg}
    {s : State} {v : Block} (hb : BufferInv s) (hs : ScheduleInv s) (hnk : 2 ≤ s.nk.toNat)
    (hv : f (s.readB rs) s.keys = .ok v) : runDriver f rd rs s = .next (wrote s rd v) := by
  have hcell := cellExists_of_lt_nk hb hs (i := s.nk.toNat - 1) (by omega)
  rw [show s.nk.toNat - 1 + 3 = s.nk.toNat + 2 by omega] at hcell
  rw [runDriver, if_neg (by omega), if_pos hcell, hv]
  rfl

/-- Settles O42: two keys are enough for the three functions (R221). -/
theorem driverCommandsComplete : Obligations.DriverCommandsComplete := by
  intro s rd rs ⟨hb, hs, _, _⟩ hnk
  obtain ⟨-, hok⟩ := cipherFunctionsNeedTwoKeys Config.chip.sbox (s.readB rs) s.keys
  obtain ⟨⟨v, hv⟩, ⟨d, hd⟩, ⟨e, he⟩⟩ := hok (by rwa [length_keys])
  exact ⟨⟨v, hv, completesWith_of_exec_eq_wrote (runDriver_of_eq_ok hb hs hnk hv)⟩,
    ⟨d, hd, completesWith_of_exec_eq_wrote (runDriver_of_eq_ok hb hs hnk hd)⟩,
    ⟨e, he, completesWith_of_exec_eq_wrote (runDriver_of_eq_ok hb hs hnk he)⟩⟩

/-- Settles O44: ENC leaves the schedule, so that the decryptions run with the keys that encrypted,
and each gives the plaintext back. -/
theorem driverRoundTrip : Obligations.DriverRoundTrip := by
  intro s p c q ⟨hb, hs, _, _⟩ hnk
  obtain ⟨v, henc, hdec, hdecs⟩ :=
    decryptionsUndoEncryption Config.chip.sbox (s.readB p) s.keys (by rwa [length_keys])
  have hb' : BufferInv (wrote s c v) := hb.of_km_eq rfl le_rfl
  have hread : (wrote s c v).readB c = v := readB_wrote_self s c v
  rw [← hread] at hdec hdecs
  exact ⟨_, _, _, runDriver_of_eq_ok hb hs hnk henc, runDriver_of_eq_ok hb' hs hnk hdec,
    runDriver_of_eq_ok hb' hs hnk hdecs, readB_wrote_self _ q _, rfl, rfl, rfl⟩

end Sys2Proof.Machine
end

section
/-! PROOF. Good states and runs: the invariant holds at reset and every edge keeps it, so that no
run stops (70_reset_and_hazards.md §4); then the port's edges, from a word offered to its answer, and
the hidden cells, which decide none of them (43_key_schedule.md R196). -/

namespace Sys2Proof.Machine

/-! ## The invariant at reset -/

theorem bufferInv_of_km_nil {s : State} (hkm : s.km = []) (hl : s.kmLen = 0) : BufferInv s where
  canonical := hkm ▸ .nil
  cells_exist := by simp [hkm]
  written := by simp [hl]
  length_le := by simp [hl]

theorem producedCode_zero : producedCode 0 := ⟨by decide, by decide, nofun⟩

theorem statusInv_of_clear {s : State} (hst : s.status = Status.clear)
    (herr : producedCode s.rspErr) : StatusInv s where
  set_code h := by rw [hst] at h; cases h
  clear_code _ := by rw [hst]; rfl
  response_code := herr

/-- What reset leaves is good: an empty buffer, no schedule, STATUS clear, nothing at the ports. -/
theorem inv_of_resetValues {s : State} (hkm : s.km = []) (hl : s.kmLen = 0) (hn : s.nk = 0)
    (hst : s.status = Status.clear) (herr : s.rspErr = 0) (hvalid : s.rspValid = false)
    (hready : s.cmdReady = false) : Inv s where
  buffer := bufferInv_of_km_nil hkm hl
  schedule := .inl hn
  status := statusInv_of_clear hst (herr ▸ producedCode_zero)
  port := ⟨by simp [hready], by simp [hvalid]⟩

/-- Settles O52: by the values of 10_state.md R32. -/
theorem resetIsGood : Obligations.ResetIsGood := inv_of_resetValues rfl rfl rfl rfl rfl rfl rfl

/-! ## Every command keeps the buffer, the schedule and STATUS good -/

section
variable {i : Instr} {s t : State}

/-- KMPUSH writes the cell that it brings below KM_LEN, and below KM_DEPTH. -/
theorem bufferInv_pushed (h : BufferInv s) (n : Nibble) (hl : s.kmLen.toNat < Config.chip.kmDepth) :
    BufferInv (pushed s n) where
  canonical := Memory.wf_write h.canonical _ _
  cells_exist x hx := by
    obtain rfl | hx := Memory.mem_write hx
    · exact hl
    · exact h.cells_exist x hx
  written a ha := by
    rw [toNat_kmLen_pushed n hl] at ha
    by_cases heq : a = s.kmLen.toNat
    · rw [heq, pushed, Memory.read_write_self]; rfl
    · rw [pushed, Memory.read_write_of_ne _ _ heq]
      exact h.written a (by omega)
  length_le := by rw [toNat_kmLen_pushed n hl]; exact hl

theorem Effect.bufferInv (h : Effect i s t) (hb : BufferInv s) : BufferInv t := by
  cases h with
  | push v _ _ hl => exact bufferInv_pushed hb _ hl
  | clearKeys => exact hb.of_km_eq rfl (Nat.zero_le _)
  | raise | write | answer | clearStatus | schedule => exact hb.of_km_eq rfl le_rfl

theorem Effect.scheduleInv (h : Effect i s t) (hs : ScheduleInv s) : ScheduleInv t := by
  cases h with
  | clearKeys => exact .inl rfl
  | schedule n _ hn => exact hn
  | push v _ _ hl =>
    refine hs.imp_right fun hfit => ?_
    rw [toNat_kmLen_pushed _ hl]
    exact hfit.trans (Nat.le_succ _)
  | raise | write | answer | clearStatus => exact hs

end

section
variable {w : Word} {s t : State}

/-- Code 4 has no cause, and code 3 has one under the strict policy alone (R301). -/
theorem producedCode_of_cause {e : ErrorCode} (h : Cause w s e) : producedCode e.code := by
  cases e with
  | lengthMismatch => exact h.elim
  | insufficientKeyMaterial => exact ⟨by decide, by decide, fun _ => h.1⟩
  | outOfRange | invalidKeyCount | illegalCommand | keyIndex | keyMaterialFull =>
    exact ⟨by decide, by decide, by decide⟩

theorem producedCode_rspErr (h : executeWord w s = .next t) : producedCode t.rspErr := by
  obtain h0 | ⟨e, he, rfl⟩ := succeedsOrCaused_of_executeWord h
  · rw [h0]; exact producedCode_zero
  · exact producedCode_of_cause he

/-- The record of R302 keeps STATUS good. -/
theorem statusInv_of_recordsFirstError (h : RecordsFirstError s t) (hs : StatusInv s)
    (herr : producedCode t.rspErr) : StatusInv t := by
  unfold RecordsFirstError at h
  split_ifs at h with hnew
  · refine ⟨fun _ => ?_, fun hclear => ?_, herr⟩
    · rw [h]; exact ⟨herr, hnew.1⟩
    · rw [h] at hclear; cases hclear
  · exact ⟨h ▸ hs.set_code, h ▸ hs.clear_code, herr⟩

theorem statusInv_of_executeWord (h : executeWord w s = .next t) (hs : StatusInv s) :
    StatusInv t := by
  by_cases hclr : decode w = .ok .clrst
  · rw [executeWord_of_decode hclr] at h
    cases h
    exact statusInv_of_clear rfl producedCode_zero
  · exact statusInv_of_recordsFirstError (statusKeepsTheFirstError w s t h hclr) hs
      (producedCode_rspErr h)

end

/-! ## Every edge keeps a good state good -/

/-- The invariant is of the written cells, the lengths, STATUS, the code and the ports. -/
theorem Inv.of_eq {s t : State} (h : Inv s) (hkm : t.km = s.km) (hl : t.kmLen = s.kmLen)
    (hn : t.nk = s.nk) (hst : t.status = s.status) (herr : t.rspErr = s.rspErr) (hp : PortInv t) :
    Inv t where
  buffer := h.buffer.of_km_eq hkm (by rw [hl])
  schedule := by rw [ScheduleInv, hn, hl]; exact h.schedule
  status := ⟨hst ▸ h.status.set_code, hst ▸ h.status.clear_code, herr ▸ h.status.response_code⟩
  port := hp

theorem portInv_portEdge {s : State} (hf : s.inFlight = none) : PortInv s.portEdge := by
  obtain ⟨w, -, -, h⟩ | ⟨-, h⟩ := s.portEdge_cases <;> rw [h]
  · exact ⟨nofun, nofun⟩
  · exact ⟨fun _ => hf, nofun⟩

/-- Where a command is in flight the block is not ready, and a waiting edge leaves it so. -/
theorem portInv_waitEdge {s : State} {w : Word} {k : Nat} (hp : PortInv s)
    (hf : s.inFlight = some ⟨w, k + 1⟩) : PortInv (s.waitEdge w k) := by
  refine ⟨fun hready => ?_, nofun⟩
  cases hf.symm.trans (hp.ready_idle hready)

theorem inv_completeEdge {w : Word} {s u : State} (hs : Inv s) (hu : executeWord w s = .next u)
    (moves : List HostMove) :
    Inv { u with inFlight := none, cmdReady := true, rspValid := true, host := moves } := by
  have hst := statusInv_of_executeWord hu hs.status
  have heffect : BufferInv u ∧ ScheduleInv u := by
    obtain ⟨i, -, hexec⟩ | ⟨e, -, rfl⟩ := executeWord_next hu
    · exact ⟨(exec_cases hexec).bufferInv hs.buffer, (exec_cases hexec).scheduleInv hs.schedule⟩
    · exact ⟨hs.buffer.of_km_eq rfl le_rfl, hs.schedule⟩
  obtain ⟨hb, hsched⟩ := heffect
  exact ⟨hb.of_km_eq rfl le_rfl, hsched, ⟨hst.set_code, hst.clear_code, hst.response_code⟩,
    ⟨fun _ => rfl, fun _ => rfl⟩⟩

/-- Settles O53: by the kind of edge; the effect of a completing command keeps each part. -/
theorem everyStepKeepsTheStateGood : Obligations.EveryStepKeepsTheStateGood := by
  intro s t hs h
  obtain ⟨-, rfl⟩ | ⟨-, hf, rfl⟩ | ⟨-, w, k, hf, rfl⟩ | ⟨-, w, u, -, hu, rfl⟩ := step_cases h
  · exact inv_of_resetValues rfl rfl rfl rfl rfl rfl rfl
  · exact hs.of_eq s.portEdge_km s.portEdge_kmLen s.portEdge_nk s.portEdge_status s.portEdge_rspErr
      (portInv_portEdge hf)
  · exact hs.of_eq rfl rfl rfl rfl rfl (portInv_waitEdge hs.port hf)
  · exact inv_completeEdge hs hu s.hostHolds

/-! ## No run stops -/

theorem exists_next_step {s : State} (hs : Inv s) : ∃ t, step s = .next t := by
  cases hrst : s.rst with
  | true => exact ⟨_, step_reset hrst⟩
  | false =>
    match hf : s.inFlight with
    | none => exact ⟨_, step_port hrst hf⟩
    | some ⟨w, k + 1⟩ => exact ⟨_, step_wait hrst hf⟩
    | some ⟨w, 0⟩ =>
      obtain ⟨u, hu⟩ := exists_next_executeWord hs.buffer hs.schedule w
      exact ⟨_, step_complete hrst hf hu⟩

theorem exists_next_run (n : Nat) {s : State} (hs : Inv s) :
    ∃ t, Host.Core.run core n s = .next t ∧ Inv t := by
  induction n generalizing s with
  | zero => exact ⟨s, rfl, hs⟩
  | succ n ih =>
    obtain ⟨s', hs'⟩ := exists_next_step hs
    obtain ⟨t, ht, hinv⟩ := ih (everyStepKeepsTheStateGood s s' hs hs')
    exact ⟨t, (run_succ_of_step core hs' n).trans ht, hinv⟩

/-- Settles O54: every edge of a good state has a next state, which is good again. -/
theorem goodStatesNeverStop : Obligations.GoodStatesNeverStop :=
  ⟨fun _ hs => exists_next_step hs, fun _ n hs => exists_next_run n hs⟩

end Sys2Proof.Machine
end

section
/-! PROOF. The command port of 30_encoding.md §1, edge by edge: acceptance, the held word, the pulse
of `rsp_valid`, and the whole way from a word offered to its answer (60_exceptions.md §6); and the
hidden cells, which decide none of it (43_key_schedule.md R196). -/

namespace Sys2Proof.Machine

/-! ## The completing edge -/

theorem step_eq_completeEdge {s : State} {w : Word} (hr : s.rst = false)
    (hf : s.inFlight = some ⟨w, 0⟩) : step s = s.completeEdge (executeWord w s) := by
  simp [step, clockEdge, hr, hf]

theorem withFetchWord_toNat (s : State) (w : Word) :
    s.withFetchWord 32 w.toNat = s.withInFlight w := by
  rw [State.withFetchWord, ofNat_toNat_mod_two_pow]

/-- Settles O7: the completing edge is the decoded command's outcome with the handshake around it,
and `withFetchWord` puts the word in flight with its wait over. -/
theorem stepRunsTheDecodedCommand : Obligations.StepRunsTheDecodedCommand := by
  refine ⟨fun s w i hr hf hw => ?_, fun s w => ?_⟩
  · rw [step_eq_completeEdge hr hf, executeWord_of_decode hw]
    cases exec i s <;> rfl
  · rw [withFetchWord_toNat]
    exact ⟨rfl, rfl, rfl, fun _ => rfl, fun _ => rfl, ⟨rfl, rfl⟩, rfl, rfl, rfl⟩

/-! ## Acceptance -/

section
variable {s : State} {w : Word} {moves : List HostMove}

theorem rst_eq_false_of_command (h : s.host = .command w :: moves) : s.rst = false := by
  rw [State.rst, h]

theorem hostHolds_of_command (h : s.host = .command w :: moves) :
    s.hostHolds = .command w :: moves := by
  rw [State.hostHolds, h]

theorem offered_of_command (h : s.host = .command w :: moves) : s.offered = some w := by
  rw [State.offered, h]

theorem portEdge_of_accepted (hr : s.cmdReady = true) (ho : s.offered = some w) :
    s.portEdge = { s with inFlight := some ⟨w, s.drawLatency w⟩, cmdReady := false,
                          rspValid := false, host := s.host.tail, draws := s.draws + 1 } := by
  simp [State.portEdge, hr, ho]

theorem portEdge_of_not_accepted (h : s.cmdReady = false ∨ s.offered = none) :
    s.portEdge = { s with cmdReady := true, rspValid := false, host := s.hostHolds } := by
  obtain hr | ho := h
  · simp [State.portEdge, hr]
  · simp [State.portEdge, ho]

end

theorem sameArchitecture_portEdge (s : State) : SameArchitecture s s.portEdge := by
  obtain ⟨w, -, -, h⟩ | ⟨-, h⟩ := s.portEdge_cases <;> rw [h] <;>
    exact ⟨fun _ => rfl, fun _ => rfl, ⟨rfl, rfl⟩, rfl, rfl, rfl⟩

theorem scheduleInv_portEdge {s : State} (hs : ScheduleInv s) : ScheduleInv s.portEdge := by
  rwa [ScheduleInv, s.portEdge_nk, s.portEdge_kmLen]

/-- While the block is not ready an edge keeps the host's move, unless it is a reset. -/
theorem host_eq_hostHolds_of_step {s t : State} (hr : s.cmdReady = false) (h : step s = .next t) :
    t.host = s.hostHolds := by
  obtain ⟨-, rfl⟩ | ⟨-, -, rfl⟩ | ⟨-, w, k, -, rfl⟩ | ⟨-, w, u, -, -, rfl⟩ := step_cases h
  · rfl
  · rw [portEdge_of_not_accepted (.inl hr)]
  · rfl
  · rfl

/-- Settles O57: by whether the block is ready at the edge; a ready block has nothing in flight. -/
theorem acceptanceNeedsValidAndReady : Obligations.AcceptanceNeedsValidAndReady := by
  refine ⟨fun s w moves hs hhost hr => ?_, fun s t w moves hhost hr h => ?_, fun s hrst hf hr => ?_⟩
  · have hstep := step_port (rst_eq_false_of_command hhost) (hs.port.ready_idle hr)
    have hsame := sameArchitecture_portEdge s
    rw [portEdge_of_accepted hr (offered_of_command hhost)] at hstep hsame
    exact ⟨_, _, hstep, rfl, rfl, rfl, congrArg List.tail hhost, hsame⟩
  · rw [host_eq_hostHolds_of_step hr h, hostHolds_of_command hhost]
  · have hstep := step_port hrst hf
    have hsame := sameArchitecture_portEdge s
    rw [portEdge_of_not_accepted (.inl hr)] at hstep hsame
    exact ⟨_, hstep, rfl, hf, rfl, hsame⟩

/-- Settles O58: of the three kinds of edge without reset the completing one alone pulses
`rsp_valid`, and the other two keep the architecture. -/
theorem responseIsHeld : Obligations.ResponseIsHeld := by
  intro s t h hrst
  obtain ⟨hr, -⟩ | ⟨-, hf, rfl⟩ | ⟨-, w, k, hf, rfl⟩ | ⟨-, w, u, hf, -, rfl⟩ := step_cases h
  · cases hrst.symm.trans hr
  · exact ⟨by simp [hf], fun _ => sameArchitecture_portEdge s⟩
  · exact ⟨by simp [hf], fun _ => sameArchitecture_waitEdge s w k⟩
  · exact ⟨iff_of_true rfl ⟨w, hf⟩, fun hno => absurd hf (hno w)⟩

/-! ## From an offered word to its answer -/

/-- From a ready block: the accepting edge, then the wait and the completing edge. -/
theorem run_answers_of_ready {s u : State} {w : Word} {moves : List HostMove}
    (hs : ScheduleInv s) (hf : s.inFlight = none) (hr : s.cmdReady = true)
    (hhost : s.host = .command w :: moves) (hmoves : HostMove.reset ∉ moves)
    (hu : executeWord w s = .next u) :
    ∃ n t, Host.Core.run core n s = .next t ∧ Completed u t := by
  have hstep := step_port (rst_eq_false_of_command hhost) hf
  obtain ⟨u', hu', hsame⟩ := (sameArchitecture_portEdge s).executeWord_next hs hu
  have hedge := portEdge_of_accepted hr (offered_of_command hhost)
  obtain ⟨t, ht, hdone⟩ := run_completes_inFlight (scheduleInv_portEdge hs)
    (by rw [hedge, hhost]; exact hmoves) (congrArg State.inFlight hedge) hu'
  exact ⟨_, t, (run_succ_of_step core hstep _).trans ht,
    { hdone with architecture := hsame.trans hdone.architecture }⟩

/-- From any good block with nothing in flight: where it is not ready, one edge more makes it so. -/
theorem run_answers {s u : State} {w : Word} {moves : List HostMove}
    (hs : ScheduleInv s) (hf : s.inFlight = none) (hhost : s.host = .command w :: moves)
    (hmoves : HostMove.reset ∉ moves) (hu : executeWord w s = .next u) :
    ∃ n t, Host.Core.run core n s = .next t ∧ Completed u t := by
  cases hr : s.cmdReady with
  | true => exact run_answers_of_ready hs hf hr hhost hmoves hu
  | false =>
    have hstep := step_port (rst_eq_false_of_command hhost) hf
    obtain ⟨u', hu', hsame⟩ := (sameArchitecture_portEdge s).executeWord_next hs hu
    have hedge := portEdge_of_not_accepted (.inl hr)
    obtain ⟨n, t, ht, hdone⟩ := run_answers_of_ready (scheduleInv_portEdge hs)
      (by rw [hedge]; exact hf) (congrArg State.cmdReady hedge)
      (by rw [hedge]; exact hostHolds_of_command hhost) hmoves hu'
    exact ⟨n + 1, t, (run_succ_of_step core hstep n).trans ht,
      { hdone with architecture := hsame.trans hdone.architecture }⟩

/-- Settles O56: the word has an effect on the good state at hand, and its answer is that effect. -/
theorem offeredCommandsAreAnswered : Obligations.OfferedCommandsAreAnswered := by
  intro s w moves hs hf hhost hmoves
  obtain ⟨u, hu⟩ := exists_next_executeWord hs.buffer hs.schedule w
  obtain ⟨n, t, ht, hdone⟩ := run_answers hs.schedule hf hhost hmoves hu
  exact ⟨n, t, u, ht, hu, hdone.architecture, hdone.rspValid, hdone.cmdReady, hdone.inFlight⟩

/-! ## The hidden cells at the ports -/

/-- A command's rule draws no free value. -/
theorem draws_eq_of_executeWord {w : Word} {s t : State} (h : executeWord w s = .next t) :
    t.draws = s.draws := by
  obtain ⟨i, -, hexec⟩ | ⟨e, -, rfl⟩ := executeWord_next h
  · obtain ⟨-, -, -, -, -, hdraws⟩ := (exec_cases hexec).portsKept
    exact hdraws
  · rfl

section
variable {s u : State}

theorem SamePorts.rst_eq (hp : SamePorts s u) : u.rst = s.rst := by
  obtain ⟨-, -, -, hhost, -⟩ := hp
  rw [State.rst, State.rst, hhost]

theorem SamePorts.hostHolds_eq (hp : SamePorts s u) : u.hostHolds = s.hostHolds := by
  obtain ⟨-, -, -, hhost, -⟩ := hp
  rw [State.hostHolds, State.hostHolds, hhost]

theorem SamePorts.offered_eq (hp : SamePorts s u) : u.offered = s.offered := by
  obtain ⟨-, -, -, hhost, -⟩ := hp
  rw [State.offered, State.offered, hhost]

/-- Both states show no cell after reset, and the next free value has the same number. -/
theorem agree_resetEdge (hp : SamePorts s u) :
    AgreeBelowLength s.resetEdge u.resetEdge ∧ SamePorts s.resetEdge u.resetEdge := by
  have hholds := hp.hostHolds_eq
  obtain ⟨-, -, -, -, hdraws⟩ := hp
  exact ⟨⟨rfl, rfl, rfl, rfl, rfl, rfl, fun _ ha => absurd ha (Nat.not_lt_zero _)⟩,
    rfl, rfl, rfl, hholds, congrArg (· + 1) hdraws⟩

/-- Both states accept the same word and draw the same wait, or both become ready. -/
theorem agree_portEdge (h : AgreeBelowLength s u) (hp : SamePorts s u) :
    AgreeBelowLength s.portEdge u.portEdge ∧ SamePorts s.portEdge u.portEdge := by
  have ⟨hb, _, hn, _⟩ := h
  have ⟨_, hready, hflight, hhost, hdraws⟩ := hp
  obtain ⟨w, hr, ho, hs⟩ | ⟨hno, hs⟩ := s.portEdge_cases
  · rw [hs, portEdge_of_accepted (hready.trans hr) (hp.offered_eq.trans ho),
      drawLatency_congr w hdraws hb h.material_eq hn]
    exact ⟨h, rfl, rfl, rfl, congrArg List.tail hhost, congrArg (· + 1) hdraws⟩
  · rw [← hready, ← hp.offered_eq] at hno
    rw [hs, portEdge_of_not_accepted hno]
    exact ⟨h, rfl, rfl, hflight, hp.hostHolds_eq, hdraws⟩

end

/-- Settles O60: by the kind of edge, the same one from both states. -/
theorem hiddenCellsNeverReachThePorts : Obligations.HiddenCellsNeverReachThePorts := by
  intro s u t hs h hp hstep
  have hrst := hp.rst_eq
  have hholds := hp.hostHolds_eq
  have ⟨_, hready, hflight, _, hdraws⟩ := hp
  obtain ⟨hr, rfl⟩ | ⟨hr, hf, rfl⟩ | ⟨hr, w, k, hf, rfl⟩ | ⟨hr, w, s', hf, hs', rfl⟩ :=
    step_cases hstep
  · exact ⟨_, step_reset (hrst.trans hr), agree_resetEdge hp⟩
  · exact ⟨_, step_port (hrst.trans hr) (hflight.trans hf), agree_portEdge h hp⟩
  · exact ⟨_, step_wait (hrst.trans hr) (hflight.trans hf), h, rfl, hready, rfl, hholds, hdraws⟩
  · obtain ⟨u', hu', hagree⟩ := h.agreeAfter_executeWord hs.schedule w s' hs'
    refine ⟨_, step_complete (hrst.trans hr) (hflight.trans hf) hu', hagree, rfl, rfl, rfl, hholds,
      ?_⟩
    exact (draws_eq_of_executeWord hu').trans (hdraws.trans (draws_eq_of_executeWord hs').symm)

end Sys2Proof.Machine
end
